-- ==== Sys2Proof/Word.lean ====
section
/-! DEFINITION. The widths of the machine: the stack cell and the instruction word. -/

namespace Sys2Proof

/-- One stack or heap cell: `CELL_W = 32` bits, read as signed two's complement
(00_scope.md R6, R10). DESIGN CHOICE: the parameter CELL_W is fixed at its default, log entry 1. -/
abbrev Cell := BitVec 32

/-- One instruction word, 64 bits (30_encoding.md R71). -/
abbrev InstrWord := BitVec 64

/-- `MIN` of 00_scope.md R10. -/
abbrev cellMin : Int := -2147483648

/-- `MAX` of 00_scope.md R10. -/
abbrev cellMax : Int := 2147483647

end Sys2Proof
end

