-- ==== Sys2Proof/Syntax.lean ====
section
/-! DEFINITION. The instructions: the abstract pairs of an opcode and an optional argument. -/

namespace Sys2Proof

/-- One constructor per row of the opcode table (30_encoding.md R72). An argument is the signed
integer of R73; its range is checked by `Instr.wellFormed`. -/
inductive Instr where
  /-- LOADC(c): push a constant (43_stack_memory.md R200). -/
  | loadc (c : Int)
  /-- ADD (41_arithmetic.md R140). -/
  | add
  /-- SUB (41_arithmetic.md R141). -/
  | sub
  /-- MUL (41_arithmetic.md R142). -/
  | mul
  /-- DIV (41_arithmetic.md R143). -/
  | div
  /-- MOD (41_arithmetic.md R144). -/
  | mod
  /-- AND (42_logic_compare.md R171). -/
  | and
  /-- OR (42_logic_compare.md R172). -/
  | or
  /-- XOR (42_logic_compare.md R173). -/
  | xor
  /-- EQ (42_logic_compare.md R174). -/
  | eq
  /-- NEQ (42_logic_compare.md R175). -/
  | neq
  /-- LE, strict less-than (42_logic_compare.md R176). -/
  | le
  /-- LEQ (42_logic_compare.md R177). -/
  | leq
  /-- GR (42_logic_compare.md R178). -/
  | gr
  /-- GEQ (42_logic_compare.md R179). -/
  | geq
  /-- NOT (42_logic_compare.md R180). -/
  | not
  /-- NEG (41_arithmetic.md R145). -/
  | neg
  /-- LOAD (43_stack_memory.md R201). -/
  | load
  /-- STORE (43_stack_memory.md R202). -/
  | store
  /-- LOADA(a) (43_stack_memory.md R203). -/
  | loada (a : Int)
  /-- STOREA(a) (43_stack_memory.md R204). -/
  | storea (a : Int)
  /-- POP (43_stack_memory.md R205). -/
  | pop
  /-- JUMP(t) (44_control.md R240). -/
  | jump (t : Int)
  /-- JUMPZ(t) (44_control.md R241). -/
  | jumpz (t : Int)
  /-- JUMPI(t) (44_control.md R242). -/
  | jumpi (t : Int)
  /-- DUP (43_stack_memory.md R206). -/
  | dup
  /-- ALLOC(k) (43_stack_memory.md R207). -/
  | alloc (k : Int)
  deriving DecidableEq, Repr

/-- The argument of an argument-carrying opcode, `none` for the others (30_encoding.md R74). -/
def Instr.arg : Instr → Option Int
  | .loadc c => some c
  | .add => none
  | .sub => none
  | .mul => none
  | .div => none
  | .mod => none
  | .and => none
  | .or => none
  | .xor => none
  | .eq => none
  | .neq => none
  | .le => none
  | .leq => none
  | .gr => none
  | .geq => none
  | .not => none
  | .neg => none
  | .load => none
  | .store => none
  | .loada a => some a
  | .storea a => some a
  | .pop => none
  | .jump t => some t
  | .jumpz t => some t
  | .jumpi t => some t
  | .dup => none
  | .alloc k => some k

end Sys2Proof
end

