-- ==== Sys2Proof/WellFormed.lean ====
section
/-! DEFINITION. When an instruction and a program are well-formed. -/

namespace Sys2Proof

/-- An argument lies in `[MIN, MAX]` (30_encoding.md R73). -/
def argInRange (v : Int) : Bool := decide (cellMin ≤ v) && decide (v ≤ cellMax)

/-- An instruction is well-formed when its argument, if it has one, lies in `[MIN, MAX]`
(30_encoding.md R73, R74). -/
def Instr.wellFormed (i : Instr) : Bool :=
  match i.arg with
  | some v => argInRange v
  | none => true

/-- The range of `LEN`: `0 <= LEN <= 2^(CELL_W-1) - 1` (00_scope.md R7). Log entry 20. -/
def lengthInRange (words : List InstrWord) : Bool := decide ((words.length : Int) ≤ cellMax)

end Sys2Proof
end

