-- ==== Sys2Proof/Decode.lean ====
section
/-! DEFINITION. The decoder of instruction words, total and rejecting by name, and the encoder. -/

namespace Sys2Proof

/-! ## The fields of a word (30_encoding.md R71) -/

/-- `OPC = w[7:0]`. -/
def opcField (w : InstrWord) : BitVec 8 := w.extractLsb' 0 8

/-- `RSV = w[31:8]`. -/
def rsvField (w : InstrWord) : BitVec 24 := w.extractLsb' 8 24

/-- `ARG = w[63:32]`. -/
def argField (w : InstrWord) : Cell := w.extractLsb' 32 32

/-! ## Decoding -/

/-- Why a word is malformed: the failing test of 30_encoding.md R75. DESIGN CHOICE: the spec
names one outcome, MALFORMED, and the model also says which test failed, log entry 18. -/
inductive Malformed where
  /-- `OPC > 26`. -/
  | opcodeOutsideSet
  /-- `RSV /= 0`. -/
  | reservedNotZero
  /-- `ARG /= 0` on an opcode that takes no argument. -/
  | argumentNotZero
  deriving DecidableEq, Repr

/-- The opcodes that carry an argument (30_encoding.md R74, R77). -/
def takesArg (opc : Nat) : Bool :=
  opc == 0 || opc == 19 || opc == 20 || opc == 22 || opc == 23 || opc == 24 || opc == 26

/-- `OPCODE(n)` of 30_encoding.md R77 with its argument: row `n` of R72's table. -/
def instrOf (opc : Nat) (arg : Int) : Option Instr :=
  match opc with
  | 0 => some (.loadc arg)
  | 1 => some .add
  | 2 => some .sub
  | 3 => some .mul
  | 4 => some .div
  | 5 => some .mod
  | 6 => some .and
  | 7 => some .or
  | 8 => some .xor
  | 9 => some .eq
  | 10 => some .neq
  | 11 => some .le
  | 12 => some .leq
  | 13 => some .gr
  | 14 => some .geq
  | 15 => some .not
  | 16 => some .neg
  | 17 => some .load
  | 18 => some .store
  | 19 => some (.loada arg)
  | 20 => some (.storea arg)
  | 21 => some .pop
  | 22 => some (.jump arg)
  | 23 => some (.jumpz arg)
  | 24 => some (.jumpi arg)
  | 25 => some .dup
  | 26 => some (.alloc arg)
  | _ => none

/-- The decoder, total on 64-bit words (30_encoding.md R77). -/
def decode (w : InstrWord) : Except Malformed Instr :=
  match instrOf (opcField w).toNat (argField w).toInt with
  | none => .error .opcodeOutsideSet
  | some i =>
    if rsvField w ≠ 0#24 then .error .reservedNotZero
    else if takesArg (opcField w).toNat = false ∧ argField w ≠ 0#32 then .error .argumentNotZero
    else .ok i

/-- The instruction of a well-formed word, `none` for a malformed one. -/
def decodeWord (w : InstrWord) : Option Instr :=
  match decode w with
  | .ok i => some i
  | .error _ => none

/-- What the decoder reads from the bits `w` of a table row of `nbits` bits, bit 0 the least
significant. The machine's unit is the whole 64-bit word, so no byte order enters
(20_memory.md R51). Log entry 16. -/
def decodeTableWord (nbits w : Nat) : Option Instr :=
  decodeWord (BitVec.ofNat 64 (w % 2 ^ nbits))

/-! ## Encoding -/

/-- The OPC number of an instruction (30_encoding.md R72). -/
def opcOf : Instr → BitVec 8
  | .loadc _ => 0x00#8
  | .add => 0x01#8
  | .sub => 0x02#8
  | .mul => 0x03#8
  | .div => 0x04#8
  | .mod => 0x05#8
  | .and => 0x06#8
  | .or => 0x07#8
  | .xor => 0x08#8
  | .eq => 0x09#8
  | .neq => 0x0A#8
  | .le => 0x0B#8
  | .leq => 0x0C#8
  | .gr => 0x0D#8
  | .geq => 0x0E#8
  | .not => 0x0F#8
  | .neg => 0x10#8
  | .load => 0x11#8
  | .store => 0x12#8
  | .loada _ => 0x13#8
  | .storea _ => 0x14#8
  | .pop => 0x15#8
  | .jump _ => 0x16#8
  | .jumpz _ => 0x17#8
  | .jumpi _ => 0x18#8
  | .dup => 0x19#8
  | .alloc _ => 0x1A#8

/-- `{ARG[31:0], RSV = 0, OPC[7:0]}`, the word of a well-formed instruction (30_encoding.md R71). -/
def encode (i : Instr) : InstrWord :=
  BitVec.ofInt 32 (i.arg.getD 0) ++ 0#24 ++ opcOf i

/-! ## Words and the opcode table -/

/-- The three tests of 30_encoding.md R75 on a word. -/
def wordWellFormed (w : InstrWord) : Bool :=
  decide ((opcField w).toNat ≤ 26) && (rsvField w == 0#24)
    && (takesArg (opcField w).toNat || argField w == 0#32)

/-- One row of the opcode table: an instruction word belongs to it when `w &&& mask = pattern`
(30_encoding.md R77). -/
structure TableRow where
  opc : Nat
  mask : InstrWord
  pattern : InstrWord
  deriving DecidableEq, Repr

/-- The row of an argument-carrying opcode: ARG is free. -/
def argRow (opc : Nat) : TableRow := ⟨opc, 0x00000000FFFFFFFF#64, BitVec.ofNat 64 opc⟩

/-- The row of an opcode without an argument: every bit is fixed. -/
def plainRow (opc : Nat) : TableRow := ⟨opc, 0xFFFFFFFFFFFFFFFF#64, BitVec.ofNat 64 opc⟩

/-- The `match` and `mask` columns of spec/opcode_table.json, in the table's order. -/
def opcodeTable : List TableRow :=
  [argRow 0, plainRow 1, plainRow 2, plainRow 3, plainRow 4, plainRow 5, plainRow 6, plainRow 7,
   plainRow 8, plainRow 9, plainRow 10, plainRow 11, plainRow 12, plainRow 13, plainRow 14,
   plainRow 15, plainRow 16, plainRow 17, plainRow 18, argRow 19, argRow 20, plainRow 21,
   argRow 22, argRow 23, argRow 24, plainRow 25, argRow 26]

end Sys2Proof
end

