-- ==== Sys2Proof/Config.lean ====
section
/-! DEFINITION. What is fixed for the machine, and the values the spec leaves free. -/

namespace Sys2Proof.Config

/-- The default of the parameter `MEMMAX`, the capacity in cells of the stack array and of the heap
array (00_scope.md R5). A machine's own capacity is the field `memMax` of its state. -/
def memMaxDefault : Nat := 65536

/-- The DRAWs: what the `n`-th read of an undefined cell returns, any value at all
(20_memory.md R53). A free value: nothing constrains it. Log entry 4. -/
opaque draw : Nat → Cell

/-- What STACK_RD shows for cell `a` at the `k`-th observation, when the cell's `defined` bit
is clear (10_state.md R32). A free value: nothing constrains it. Log entry 14. -/
opaque inspectDraw : Nat → Nat → Cell

end Sys2Proof.Config
end

