-- ==== Sys2Proof/Machine/State.lean ====
section
/-! DEFINITION. The machine's state as plain data, why a step can stop, and the state after reset. -/

namespace Sys2Proof.Machine

/-- One stack cell that has been written since reset: its content and its `defined` bit
(10_state.md R23). -/
structure Slot where
  value : Cell
  defined : Bool
  deriving DecidableEq, Repr

/-- A cell array, sparse: the slots of the cells written since reset, indices strictly rising.
A cell that is not listed has never been written: its content is unspecified and its `defined`
bit is clear (10_state.md R35). Log entry 5. -/
abbrev Memory := List (Nat × Slot)

/-- The heap array, sparse, in the same form (10_state.md R24). Log entry 6. -/
abbrev Heap := List (Nat × Cell)

/-- The architectural state (10_state.md R20). The three pointer registers and FAULT_IP are
unbounded integers, as 00_scope.md R8 allows (log entry 3). -/
structure State where
  /-- `stack[0..MEMMAX-1]` with the `defined` bits (R23). -/
  stack : Memory
  /-- `heap[0..MEMMAX-1]`: present, and reached by no instruction (R24). Log entry 6. -/
  heap : Heap
  /-- Index of the topmost live stack cell, -1 when the stack is empty (R25). -/
  sp : Int
  /-- The heap pointer (R26). -/
  hp : Int
  /-- Index of the next instruction to fetch (R27). -/
  ip : Int
  /-- STATUS: STATE [1:0], reserved [3:2], FCODE [7:4], FOP [15:8] (R28). -/
  status : BitVec 16
  /-- FAULT_IP, the index of the instruction whose step faulted (R29). -/
  faultIp : Int
  /-- `PROG[0..LEN-1]`; `LEN` is its length (R31, 00_scope.md R7). -/
  prog : List InstrWord
  /-- `MEMMAX`, the capacity in cells of either array (00_scope.md R5): a parameter of the block,
  constant as PROG and LEN are (R20), with the default 65536. Log entry 2. -/
  memMax : Nat := Config.memMaxDefault
  /-- The model's own: how many DRAWs have been taken (20_memory.md R53). Log entry 4. -/
  draws : Nat
  deriving DecidableEq, Repr

/-- Why the model stops. The six faults of the block are no stops: fault entry is a next state
(60_exceptions.md R310). Both stops below are out of reach of every constructed machine. -/
inductive Fault where
  /-- Raised by `step` when STATE is RUNNING and `ip` names no program word. R101 says this cannot
  happen. Safe: the model stops where the spec gives no word to run. Log entry 10. -/
  | noSuchInstruction
  /-- Raised by a meaning that reads a stack cell outside `[0, MEMMAX-1]`. 20_memory.md R53 says
  this cannot happen. Safe: the model stops where no cell exists. Log entry 11. -/
  | noSuchCell
  deriving DecidableEq, Repr

/-- Why the model gives an instruction no meaning. -/
inductive Refusal where
  /-- Raised by an arm of `exec` whose instruction has no meaning yet. No arm is one. Safe. -/
  | notModelled (mnemonic : String)
  deriving DecidableEq, Repr

/-- The machine right after reset (10_state.md R35). Reset is CONSTRUCT (70_reset_and_hazards.md
R400), and this is CONSTRUCT of the empty program: `LEN = 0`, so STATE is HALTED (R403).
Every program is loaded from outside, by CONSTRUCT. Log entry 7. -/
def State.reset : State where
  stack := []
  heap := []
  sp := -1
  hp := -1
  ip := 0
  status := 0x0001#16
  faultIp := 0
  prog := []
  memMax := Config.memMaxDefault
  draws := 0

end Sys2Proof.Machine
end

