-- ==== Sys2Proof/Machine/Ops.lean ====
section
/-! DEFINITION. The named operations: the register updates, STATUS, the cell arrays, MemRead and
MemWrite, the program port, fault entry, the post-check and the phases around an instruction. -/

namespace Sys2Proof.Machine

/-! ## Register updates -/

/-- `stack` (with the `defined` bits) replaced. -/
def State.setStack (s : State) (m : Memory) : State := { s with stack := m }

/-- `sp <- v`, exact (00_scope.md R8, R11). -/
def State.setSp (s : State) (v : Int) : State := { s with sp := v }

/-- `ip <- v`, exact (00_scope.md R8, R11). -/
def State.setIp (s : State) (v : Int) : State := { s with ip := v }

/-- STATUS replaced; only fault entry and the status update do so (10_state.md R28). -/
def State.setStatus (s : State) (v : BitVec 16) : State := { s with status := v }

/-- FAULT_IP latched (10_state.md R29). -/
def State.setFaultIp (s : State) (v : Int) : State := { s with faultIp := v }

/-- One more DRAW has been taken (20_memory.md R53). Log entry 4. -/
def State.takeDraw (s : State) : State := { s with draws := s.draws + 1 }

/-- `LEN`, the number of instructions in the program (00_scope.md R7). -/
def State.len (s : State) : Int := s.prog.length

/-! ## STATUS (10_state.md R28) -/

/-- The three values of STATUS.STATE (10_state.md R30). -/
inductive RunState where
  | running
  | halted
  | faulted
  deriving DecidableEq, Repr

/-- The code of a STATE value (10_state.md R28); 3 is never produced. -/
def RunState.code : RunState → BitVec 2
  | .running => 0#2
  | .halted => 1#2
  | .faulted => 2#2

/-- The six faults of the block (60_exceptions.md R300). -/
inductive Cause where
  | stackUnderflow
  | illegalStackMemoryAccess
  | divisionByZero
  | memoryOverflow
  | illegalInstructionAccess
  | unsupportedOperation
  deriving DecidableEq, Repr

/-- The FCODE numbers (60_exceptions.md R300). -/
def Cause.code : Cause → BitVec 4
  | .stackUnderflow => 1#4
  | .illegalStackMemoryAccess => 2#4
  | .divisionByZero => 3#4
  | .memoryOverflow => 4#4
  | .illegalInstructionAccess => 5#4
  | .unsupportedOperation => 6#4

/-- STATUS from its fields; the reserved bits are hard-wired 0 (10_state.md R28). Log entry 13. -/
def packStatus (fop : BitVec 8) (fcode : BitVec 4) (state : BitVec 2) : BitVec 16 :=
  fop ++ fcode ++ 0#2 ++ state

/-- STATUS.STATE. -/
def State.stateField (s : State) : BitVec 2 := s.status.extractLsb' 0 2

/-- STATUS[3:2], reserved. -/
def State.reservedField (s : State) : BitVec 2 := s.status.extractLsb' 2 2

/-- STATUS.FCODE. -/
def State.fcode (s : State) : BitVec 4 := s.status.extractLsb' 4 4

/-- STATUS.FOP. -/
def State.fop (s : State) : BitVec 8 := s.status.extractLsb' 8 8

/-- The gate of 40_dispatch.md R100, phase 0: only a RUNNING block takes a step (R112). -/
def State.isRunning (s : State) : Bool := s.stateField == RunState.running.code

/-- `STATUS.STATE <- r`, the other fields unchanged (40_dispatch.md R109). -/
def State.setRunState (s : State) (r : RunState) : State :=
  s.setStatus (packStatus s.fop s.fcode r.code)

/-! ## The cell arrays -/

/-- The slot of cell `a`, `none` where nothing has written it since reset. -/
def Memory.find : Memory → Nat → Option Slot
  | [], _ => none
  | (b, x) :: m, a => if a = b then some x else Memory.find m a

/-- Cell `a` gets the slot `x`; every other cell keeps its own. -/
def Memory.put : Memory → Nat → Slot → Memory
  | [], a, x => [(a, x)]
  | (b, y) :: m, a, x =>
    if a < b then (a, x) :: (b, y) :: m
    else if a = b then (a, x) :: m
    else (b, y) :: Memory.put m a x

/-- `for j in lo .. hi: defined[j] <- 0`; the contents stay (43_stack_memory.md R207). -/
def Memory.undefine (m : Memory) (lo hi : Int) : Memory :=
  m.map fun c =>
    if lo ≤ (c.1 : Int) ∧ (c.1 : Int) ≤ hi then (c.1, { c.2 with defined := false }) else c

/-- Indices strictly rising from `lo` on, and below the capacity `n`. -/
def cellsRise {α : Type} (n : Nat) : Nat → List (Nat × α) → Bool
  | _, [] => true
  | lo, (a, _) :: m => decide (lo ≤ a) && decide (a < n) && cellsRise n (a + 1) m

/-- The canonical form of a stack array of `n` cells: one slot a cell, indices strictly rising,
every cell inside the array (20_memory.md R50). -/
def Memory.wf (m : Memory) (n : Nat) : Bool := cellsRise n 0 m

/-- The same form of a heap array of `n` cells: its indices are bounded by the same capacity
(00_scope.md R5, 20_memory.md R50). -/
def Heap.wf (h : Heap) (n : Nat) : Bool := cellsRise n 0 h

/-- Index `a` names a cell of an array of `n` cells: `0 <= a < n` (20_memory.md R50). -/
def inArray (n : Nat) (a : Int) : Bool := decide (0 ≤ a) && decide (a < (n : Int))

/-- What stack cell `a` holds: its content and `defined` bit, `none` where nothing has been
written since reset. -/
def State.slotAt (s : State) (a : Nat) : Option Slot := s.stack.find a

/-- `defined[a] = 1` (10_state.md R23). -/
def State.isDefined (s : State) (a : Nat) : Bool :=
  match s.slotAt a with
  | some x => x.defined
  | none => false

/-- The value a read of stack cell `a` returns: the last value written, or a DRAW where the
`defined` bit is clear (20_memory.md R53, R57). -/
def State.readValue (s : State) (a : Int) : Cell :=
  match s.slotAt a.toNat with
  | some x => if x.defined then x.value else Config.draw s.draws
  | none => Config.draw s.draws

/-- The state after a read of stack cell `a`: nothing has changed, but that a DRAW may have been
taken (20_memory.md R53, R56). -/
def State.afterRead (s : State) (a : Int) : State :=
  if s.isDefined a.toNat then s else s.takeDraw

/-- `MemRead(a, 1)` (20_memory.md R53); `none` for an index that names no cell, which no caller
passes in a state a run reaches (log entry 11). -/
def memRead (a : Int) (s : State) : Option (Cell × State) :=
  if inArray s.memMax a then some (s.readValue a, s.afterRead a) else none

/-- `MemWrite(a, 1, v)` (20_memory.md R54): outside the array nothing is written. Log entry 12. -/
def memWrite (a : Int) (v : Cell) (s : State) : State :=
  if inArray s.memMax a then s.setStack (s.stack.put a.toNat ⟨v, true⟩) else s

/-! ## The program port -/

/-- `PROG_RD(i)`: the word at index `i`, `none` outside `0 .. LEN-1` (10_state.md R32, R31). -/
def State.progRd (s : State) (i : Int) : Option InstrWord :=
  if 0 ≤ i then s.prog[i.toNat]? else none

/-- Phase 1, fetch: `PROG[i]` for `i = ip` (40_dispatch.md R101). -/
def fetch (s : State) : Option InstrWord := s.progRd s.ip

/-- `CONSTRUCT(words)`: loads PROG and LEN and sets every piece of state to its reset value
(70_reset_and_hazards.md R400, 10_state.md R35); with `LEN = 0` the block is HALTED (R403).
The block's capacity is a named parameter with a default (00_scope.md R5). -/
def State.construct (words : List InstrWord) (memMax : Nat := Config.memMaxDefault) : State where
  stack := []
  heap := []
  sp := -1
  hp := -1
  ip := 0
  status := packStatus 0#8 0#4
    (if words.length = 0 then RunState.halted.code else RunState.running.code)
  faultIp := 0
  prog := words
  memMax := memMax
  draws := 0

/-- The program with word `w` at index `ip`, and a block that runs it next: STATE is RUNNING. An
`ip` outside `0 .. LEN` is first set to 0. Used by `State.withFetchWord` only. Log entry 7. -/
def State.placeWord (s : State) (w : InstrWord) : State :=
  let i : Int := if 0 ≤ s.ip ∧ s.ip ≤ s.len then s.ip else 0
  { s with
    ip := i
    prog := s.prog.take i.toNat ++ w :: s.prog.drop (i.toNat + 1)
    status := packStatus s.fop s.fcode RunState.running.code }

/-! ## Fault entry and the phases around an instruction -/

/-- Fault entry (60_exceptions.md R310), for fault `c` of the instruction at index `i` whose word
has the OPC byte `opc`. Nothing else changes. There is no return from it (R312). -/
def faultEntry (c : Cause) (opc : BitVec 8) (i : Int) (s : State) : State :=
  (s.setStatus (packStatus opc c.code RunState.faulted.code)).setFaultIp i

/-- How the execute phase ends. -/
inductive Effect where
  /-- The effect is complete. -/
  | done (s : State)
  /-- `raise c`: a pre-check failed in the state given (00_scope.md R11). -/
  | raise (c : Cause) (s : State)
  /-- The model stops: a cell that does not exist was read (log entry 11). -/
  | stop (f : Fault)
  deriving DecidableEq, Repr

/-- Phase 5, the capacity test of the post-check (40_dispatch.md R107). -/
def overCapacity (s : State) : Bool :=
  decide ((s.memMax : Int) ≤ s.sp) || decide ((s.memMax : Int) ≤ s.hp)

/-- Phase 5, the `ip` test of the post-check (40_dispatch.md R107). -/
def ipOutOfRange (s : State) : Bool := decide (s.ip < 0) || decide (s.len < s.ip)

/-- Phase 6, the status update (40_dispatch.md R109). -/
def statusUpdate (s : State) : State :=
  s.setRunState (if s.ip = s.len then .halted else .running)

/-- Phases 5 to 7 after a complete effect (40_dispatch.md R100, R107, R108): the post-check keeps
the effect when it faults. -/
def finish (opc : BitVec 8) (i : Int) (s : State) : State :=
  if overCapacity s then faultEntry .memoryOverflow opc i s
  else if ipOutOfRange s then faultEntry .illegalInstructionAccess opc i s
  else statusUpdate s

/-- The phases of a step from the sequencer on (40_dispatch.md R100, R102): `ip <- ip + 1`, the
execute phase `eff`, then the post-check and the status update, or fault entry. FOP receives the
OPC byte of the instruction, which is the fetched word's. Log entry 8. -/
def runInstr (i : Instr) (eff : State → Effect) (s : State) :
    Host.Outcome State Fault Refusal :=
  match eff (s.setIp (s.ip + 1)) with
  | .done t => .next (finish (opcOf i) s.ip t)
  | .raise c t => .next (faultEntry c (opcOf i) s.ip t)
  | .stop f => .fault f

/-- The step of a malformed word: `ip <- ip + 1`, then UnsupportedOperation with the raw OPC byte
(40_dispatch.md R100, 60_exceptions.md R306). -/
def unsupported (w : InstrWord) (s : State) : State :=
  faultEntry .unsupportedOperation (opcField w) s.ip (s.setIp (s.ip + 1))

end Sys2Proof.Machine
end

