-- ==== Sys2Proof/Machine/Alu.lean ====
section
/-! DEFINITION. The ALU's integer arithmetic: exact results, then `wrap` (00_scope.md R10,
41_arithmetic.md R146, R147). -/

namespace Sys2Proof.Machine

/-- `wrap(v)`: the signed 32-bit integer congruent to `v` (00_scope.md R10). -/
def wrap (v : Int) : Int := (v + 2147483648) % 4294967296 - 2147483648

/-- A result as it is written to a cell: through `wrap` (00_scope.md R10). -/
def cellOf (v : Int) : Cell := BitVec.ofInt 32 (wrap v)

/-- `truncdiv(a, b)`: magnitude `floor(|a| / |b|)`, negative when the signs are opposite
(00_scope.md R10); used with `b /= 0` only. -/
def truncdiv (a b : Int) : Int :=
  if decide (a < 0) = decide (b < 0) then ((a.natAbs / b.natAbs : Nat) : Int)
  else -((a.natAbs / b.natAbs : Nat) : Int)

/-- `rem(a, b) = a - b * truncdiv(a, b)` (00_scope.md R10). -/
def rem (a b : Int) : Int := a - b * truncdiv a b

end Sys2Proof.Machine
end

