-- ==== Sys2Proof/Machine/Flags.lean ====
section
/-! DEFINITION. What stands in for flags. The machine has no status flags and no condition codes
(10_state.md R22): a logic or comparison result is the integer 1 or 0, pushed on the stack. -/

namespace Sys2Proof.Machine

/-- The integer of a relation that holds or does not: exactly 1 or 0 (42_logic_compare.md R170). -/
def bit (b : Bool) : Int := if b then 1 else 0

/-- `truth(v)`: 1 if `v /= 0`, else 0 (00_scope.md R10). -/
def truth (v : Int) : Int := if v ≠ 0 then 1 else 0

/-- AND of truth values (42_logic_compare.md R171). -/
def logicAnd (a b : Int) : Int := bit (decide (a ≠ 0) && decide (b ≠ 0))

/-- OR of truth values (42_logic_compare.md R172). -/
def logicOr (a b : Int) : Int := bit (decide (a ≠ 0) || decide (b ≠ 0))

/-- XOR of truth values (42_logic_compare.md R173). -/
def logicXor (a b : Int) : Int := bit (decide (truth a ≠ truth b))

/-- NOT of a truth value (42_logic_compare.md R180; 90_conflicts.md C5). -/
def logicNot (v : Int) : Int := if v ≠ 0 then 0 else 1

/-- `first = second` (42_logic_compare.md R174). -/
def relEq (a b : Int) : Int := bit (decide (a = b))

/-- `first /= second` (42_logic_compare.md R175). -/
def relNeq (a b : Int) : Int := bit (decide (a ≠ b))

/-- `first < second`, signed (42_logic_compare.md R176). -/
def relLe (a b : Int) : Int := bit (decide (a < b))

/-- `first <= second`, signed (42_logic_compare.md R177). -/
def relLeq (a b : Int) : Int := bit (decide (a ≤ b))

/-- `first > second`, signed (42_logic_compare.md R178). -/
def relGr (a b : Int) : Int := bit (decide (a > b))

/-- `first >= second`, signed (42_logic_compare.md R179). -/
def relGeq (a b : Int) : Int := bit (decide (a ≥ b))

end Sys2Proof.Machine
end

