-- ==== Sys2Proof/Machine/Operands.lean ====
section
/-! DEFINITION. The operand forms: stack operands, addresses and targets with their pre-checks,
and the BINOP and UNOP templates (40_dispatch.md R104 to R111). Each takes the rest of the
execute phase as its last argument. -/

namespace Sys2Proof.Machine

/-- The stack-depth pre-check: `sp >= need`, else StackUnderflow (40_dispatch.md R105). -/
def needDepth (need : Int) (s : State) (rest : Effect) : Effect :=
  if s.sp < need then .raise .stackUnderflow s else rest

/-- The address pre-check: `0 <= a <= limit`, else IllegalStackMemoryAccess (20_memory.md R55). -/
def needAddress (a limit : Int) (s : State) (rest : Effect) : Effect :=
  if a > limit ∨ a < 0 then .raise .illegalStackMemoryAccess s else rest

/-- The jump-target pre-check: `t < LEN`, else IllegalInstructionAccess (44_control.md R240). -/
def needTarget (t : Int) (s : State) (rest : Effect) : Effect :=
  if t ≥ s.len then .raise .illegalInstructionAccess s else rest

/-- The divisor pre-check: DivisionByZero for 0 (41_arithmetic.md R143, R144). -/
def needDivisor (_first second : Int) (s : State) (rest : Effect) : Effect :=
  if second = 0 then .raise .divisionByZero s else rest

/-- No operand-value pre-check. -/
def noCheck (_first _second : Int) (_s : State) (rest : Effect) : Effect := rest

/-- `v <- MemRead(a, 1)` (20_memory.md R53). -/
def readCell (a : Int) (s : State) (rest : Cell → State → Effect) : Effect :=
  match memRead a s with
  | none => .stop .noSuchCell
  | some (v, t) => rest v t

/-- Push `v`: `sp <- sp + 1; MemWrite(sp, 1, v)` (00_scope.md R12). -/
def push (v : Cell) (s : State) : State := memWrite (s.sp + 1) v (s.setSp (s.sp + 1))

/-- Push the copy `v` of the top cell: the two cells then hold the same value, also where `v` is a
DRAW (43_stack_memory.md R206; 95_test_vectors.md M33). At full capacity nothing is written
(R206). Log entry 19. -/
def pushCopy (v : Cell) (s : State) : State :=
  push v (if s.sp + 1 < (s.memMax : Int) then memWrite s.sp v s else s)

/-- DUP's effect on a stack that is not empty (43_stack_memory.md R206): one read of the top cell,
one push of its copy. -/
def copyTop (s : State) : Effect :=
  readCell s.sp s fun v s =>
  .done (pushCopy v s)

/-- BINOP (40_dispatch.md R110): pop `second` and `first`, push `f first second`. -/
def binop (need : Int) (extraCheck : Int → Int → State → Effect → Effect) (f : Int → Int → Int)
    (s : State) : Effect :=
  needDepth need s <|
  readCell (s.sp - 1) s fun first s =>
  readCell s.sp s fun second s =>
  extraCheck first.toInt second.toInt s <|
  .done (memWrite (s.sp - 1) (cellOf (f first.toInt second.toInt)) (s.setSp (s.sp - 1)))

/-- UNOP (40_dispatch.md R111): the top cell becomes `f top`, in place. -/
def unop (f : Int → Int) (s : State) : Effect :=
  needDepth 0 s <|
  readCell s.sp s fun top s =>
  .done (memWrite s.sp (cellOf (f top.toInt)) s)

end Sys2Proof.Machine
end

