-- ==== Sys2Proof/Machine/Arithmetic.lean ====
section
/-! DEFINITION. The arithmetic instructions (41_arithmetic.md). -/

namespace Sys2Proof.Machine

/-- ADD (R140). -/
def execAdd (s : State) : Host.Outcome State Fault Refusal :=
  runInstr .add (binop 1 noCheck fun a b => a + b) s

/-- SUB: the deeper operand is the minuend (R141). -/
def execSub (s : State) : Host.Outcome State Fault Refusal :=
  runInstr .sub (binop 1 noCheck fun a b => a - b) s

/-- MUL: the low 32 bits of the exact product (R142). -/
def execMul (s : State) : Host.Outcome State Fault Refusal :=
  runInstr .mul (binop 1 noCheck fun a b => a * b) s

/-- DIV: toward zero; a zero divisor raises DivisionByZero (R143, R147). -/
def execDiv (s : State) : Host.Outcome State Fault Refusal :=
  runInstr .div (binop 1 needDivisor truncdiv) s

/-- MOD: the remainder has the dividend's sign (R144, R147). -/
def execMod (s : State) : Host.Outcome State Fault Refusal :=
  runInstr .mod (binop 1 needDivisor rem) s

/-- NEG: in place (R145). -/
def execNeg (s : State) : Host.Outcome State Fault Refusal :=
  runInstr .neg (unop fun v => 0 - v) s

end Sys2Proof.Machine
end

