-- ==== Sys2Proof/Machine/Control.lean ====
section
/-! DEFINITION. The control-transfer instructions (44_control.md): of each, its execute phase and
its meaning. -/

namespace Sys2Proof.Machine

/-- JUMP(t): a negative `t` passes the pre-check and fails the post-check (R240). -/
def jumpEffect (t : Int) (s : State) : Effect :=
  needTarget t s <|
  .done (s.setIp t)

/-- JUMPZ(t): pop the condition, jump if it is 0; the target is checked in either case (R241). -/
def jumpzEffect (t : Int) (s : State) : Effect :=
  needTarget t s <|
  needDepth 0 s <|
  readCell s.sp s fun c s =>
  .done ((if c.toInt = 0 then s.setIp t else s).setSp (s.sp - 1))

/-- JUMPI(t): jump to `t + o`, `o` popped; the sum is exact and the post-check alone tests it
(R242; 90_conflicts.md C3). -/
def jumpiEffect (t : Int) (s : State) : Effect :=
  needTarget t s <|
  needDepth 0 s <|
  readCell s.sp s fun o s =>
  .done ((s.setIp (t + o.toInt)).setSp (s.sp - 1))

/-- JUMP(t) (R240). -/
def execJump (t : Int) (s : State) : Host.Outcome State Fault Refusal :=
  runInstr (.jump t) (jumpEffect t) s

/-- JUMPZ(t) (R241). -/
def execJumpz (t : Int) (s : State) : Host.Outcome State Fault Refusal :=
  runInstr (.jumpz t) (jumpzEffect t) s

/-- JUMPI(t) (R242). -/
def execJumpi (t : Int) (s : State) : Host.Outcome State Fault Refusal :=
  runInstr (.jumpi t) (jumpiEffect t) s

end Sys2Proof.Machine
end

