-- ==== Sys2Proof/Machine/LogicCompare.lean ====
section
/-! DEFINITION. The logic and comparison instructions (42_logic_compare.md). -/

namespace Sys2Proof.Machine

/-- AND: logical, both operands popped (R171). -/
def execAnd (s : State) : Host.Outcome State Fault Refusal :=
  runInstr .and (binop 1 noCheck logicAnd) s

/-- OR: logical (R172). -/
def execOr (s : State) : Host.Outcome State Fault Refusal :=
  runInstr .or (binop 1 noCheck logicOr) s

/-- XOR: logical; it needs three live cells (R173; 90_conflicts.md C1, C2). -/
def execXor (s : State) : Host.Outcome State Fault Refusal :=
  runInstr .xor (binop 2 noCheck logicXor) s

/-- EQ (R174). -/
def execEq (s : State) : Host.Outcome State Fault Refusal :=
  runInstr .eq (binop 1 noCheck relEq) s

/-- NEQ (R175). -/
def execNeq (s : State) : Host.Outcome State Fault Refusal :=
  runInstr .neq (binop 1 noCheck relNeq) s

/-- LE: strict less-than (R176). -/
def execLe (s : State) : Host.Outcome State Fault Refusal :=
  runInstr .le (binop 1 noCheck relLe) s

/-- LEQ (R177). -/
def execLeq (s : State) : Host.Outcome State Fault Refusal :=
  runInstr .leq (binop 1 noCheck relLeq) s

/-- GR (R178). -/
def execGr (s : State) : Host.Outcome State Fault Refusal :=
  runInstr .gr (binop 1 noCheck relGr) s

/-- GEQ (R179). -/
def execGeq (s : State) : Host.Outcome State Fault Refusal :=
  runInstr .geq (binop 1 noCheck relGeq) s

/-- NOT: logical negation, in place (R180; 90_conflicts.md C5). -/
def execNot (s : State) : Host.Outcome State Fault Refusal :=
  runInstr .not (unop logicNot) s

end Sys2Proof.Machine
end

