-- ==== Sys2Proof/Machine/StackMemory.lean ====
section
/-! DEFINITION. The stack and memory instructions (43_stack_memory.md): of each, its execute phase
and its meaning. -/

namespace Sys2Proof.Machine

/-- LOADC(c): push the constant (R200). -/
def loadcEffect (c : Int) (s : State) : Effect := .done (push (cellOf c) s)

/-- LOAD: the address on top is replaced by the value of the cell it names (R201). -/
def loadEffect (s : State) : Effect :=
  needDepth 0 s <|
  readCell s.sp s fun a s =>
  needAddress a.toInt s.sp s <|
  readCell a.toInt s fun v s =>
  .done (memWrite s.sp v s)

/-- STORE: pop the address, pop the value, write it to the addressed cell (R202;
90_conflicts.md C6). -/
def storeEffect (s : State) : Effect :=
  needDepth 1 s <|
  readCell s.sp s fun a s =>
  needAddress a.toInt (s.sp - 1) s <|
  readCell (s.sp - 1) s fun v s =>
  .done ((memWrite a.toInt v s).setSp (s.sp - 2))

/-- LOADA(a): push the value of cell `a`; `a = sp` behaves like DUP (R203). -/
def loadaEffect (a : Int) (s : State) : Effect :=
  needAddress a s.sp s <|
  if a = s.sp then copyTop s
  else
    readCell a s fun v s =>
    .done (push v s)

/-- STOREA(a): copy the top cell into cell `a`; the value stays (R204). -/
def storeaEffect (a : Int) (s : State) : Effect :=
  needDepth 0 s <|
  needAddress a s.sp s <|
  readCell s.sp s fun v s =>
  .done (memWrite a v s)

/-- POP: discard the top cell, which keeps its content and its `defined` bit (R205). -/
def popEffect (s : State) : Effect :=
  needDepth 0 s <|
  .done (s.setSp (s.sp - 1))

/-- DUP: push a copy of the top cell (R206). -/
def dupEffect (s : State) : Effect :=
  needDepth 0 s <|
  copyTop s

/-- ALLOC(k): make `k` cells live and undefined, or release `-k` cells; the sum is exact (R207). -/
def allocEffect (k : Int) (s : State) : Effect :=
  if s.sp + k < -1 then .raise .stackUnderflow s
  else
    .done ((s.setStack (s.stack.undefine (s.sp + 1)
      (min (s.sp + k) ((s.memMax : Int) - 1)))).setSp (s.sp + k))

/-- LOADC(c) (R200). -/
def execLoadc (c : Int) (s : State) : Host.Outcome State Fault Refusal :=
  runInstr (.loadc c) (loadcEffect c) s

/-- LOAD (R201). -/
def execLoad (s : State) : Host.Outcome State Fault Refusal := runInstr .load loadEffect s

/-- STORE (R202). -/
def execStore (s : State) : Host.Outcome State Fault Refusal := runInstr .store storeEffect s

/-- LOADA(a) (R203). -/
def execLoada (a : Int) (s : State) : Host.Outcome State Fault Refusal :=
  runInstr (.loada a) (loadaEffect a) s

/-- STOREA(a) (R204). -/
def execStorea (a : Int) (s : State) : Host.Outcome State Fault Refusal :=
  runInstr (.storea a) (storeaEffect a) s

/-- POP (R205). -/
def execPop (s : State) : Host.Outcome State Fault Refusal := runInstr .pop popEffect s

/-- DUP (R206). -/
def execDup (s : State) : Host.Outcome State Fault Refusal := runInstr .dup dupEffect s

/-- ALLOC(k) (R207). -/
def execAlloc (k : Int) (s : State) : Host.Outcome State Fault Refusal :=
  runInstr (.alloc k) (allocEffect k) s

end Sys2Proof.Machine
end

