-- ==== Sys2Proof/Machine/Dispatch.lean ====
section
/-! DEFINITION. The dispatcher: one arm per opcode (40_dispatch.md R103). `exec i s` runs the
phases of 40_dispatch.md R100 from the increment of `ip` on, in a state whose `ip` is the
instruction's index (log entry 8). -/

namespace Sys2Proof.Machine

def exec (i : Instr) (s : State) : Host.Outcome State Fault Refusal :=
  match i with
  | .loadc c => Sys2Proof.Machine.execLoadc c s
  | .add => Sys2Proof.Machine.execAdd s
  | .sub => Sys2Proof.Machine.execSub s
  | .mul => Sys2Proof.Machine.execMul s
  | .div => Sys2Proof.Machine.execDiv s
  | .mod => Sys2Proof.Machine.execMod s
  | .and => Sys2Proof.Machine.execAnd s
  | .or => Sys2Proof.Machine.execOr s
  | .xor => Sys2Proof.Machine.execXor s
  | .eq => Sys2Proof.Machine.execEq s
  | .neq => Sys2Proof.Machine.execNeq s
  | .le => Sys2Proof.Machine.execLe s
  | .leq => Sys2Proof.Machine.execLeq s
  | .gr => Sys2Proof.Machine.execGr s
  | .geq => Sys2Proof.Machine.execGeq s
  | .not => Sys2Proof.Machine.execNot s
  | .neg => Sys2Proof.Machine.execNeg s
  | .load => Sys2Proof.Machine.execLoad s
  | .store => Sys2Proof.Machine.execStore s
  | .loada a => Sys2Proof.Machine.execLoada a s
  | .storea a => Sys2Proof.Machine.execStorea a s
  | .pop => Sys2Proof.Machine.execPop s
  | .jump t => Sys2Proof.Machine.execJump t s
  | .jumpz t => Sys2Proof.Machine.execJumpz t s
  | .jumpi t => Sys2Proof.Machine.execJumpi t s
  | .dup => Sys2Proof.Machine.execDup s
  | .alloc k => Sys2Proof.Machine.execAlloc k s

end Sys2Proof.Machine
end

