-- ==== Sys2Proof/Machine/Step.lean ====
section
/-! DEFINITION. One STEP of the block, and the placing of a word where the next step fetches it. -/

namespace Sys2Proof.Machine

/-- One STEP (40_dispatch.md R100): the gate (phase 0, R112), fetch (phase 1, R101) and decode
(phase 3, 30_encoding.md R77); the other phases are `exec`'s. -/
def step (s : State) : Host.Outcome State Fault Refusal :=
  if s.isRunning then
    match fetch s with
    | none => .fault .noSuchInstruction
    | some w =>
      match decode w with
      | .ok i => exec i s
      | .error _ => .next (unsupported w s)
  else .next s

/-- `s` with the word `w` where the next step fetches, in a program that a CONSTRUCT would have
loaded, and the block RUNNING. Log entry 7. -/
def State.withFetchWord (s : State) (nbits w : Nat) : State :=
  s.placeWord (BitVec.ofNat 64 (w % 2 ^ nbits))

end Sys2Proof.Machine
end

