-- ==== Sys2Proof/Machine/Assembler.lean ====
section
/-! DEFINITION. The assembler syntax (30_encoding.md R78, R79), over lists of characters. -/

namespace Sys2Proof.Machine

/-- The mnemonic of a row of 30_encoding.md R72 is `name`: its OPC number. -/
def mnemonicOpc (name : List Char) : Option Nat :=
  match name with
  | ['L', 'O', 'A', 'D', 'C'] => some 0
  | ['A', 'D', 'D'] => some 1
  | ['S', 'U', 'B'] => some 2
  | ['M', 'U', 'L'] => some 3
  | ['D', 'I', 'V'] => some 4
  | ['M', 'O', 'D'] => some 5
  | ['A', 'N', 'D'] => some 6
  | ['O', 'R'] => some 7
  | ['X', 'O', 'R'] => some 8
  | ['E', 'Q'] => some 9
  | ['N', 'E', 'Q'] => some 10
  | ['L', 'E'] => some 11
  | ['L', 'E', 'Q'] => some 12
  | ['G', 'R'] => some 13
  | ['G', 'E', 'Q'] => some 14
  | ['N', 'O', 'T'] => some 15
  | ['N', 'E', 'G'] => some 16
  | ['L', 'O', 'A', 'D'] => some 17
  | ['S', 'T', 'O', 'R', 'E'] => some 18
  | ['L', 'O', 'A', 'D', 'A'] => some 19
  | ['S', 'T', 'O', 'R', 'E', 'A'] => some 20
  | ['P', 'O', 'P'] => some 21
  | ['J', 'U', 'M', 'P'] => some 22
  | ['J', 'U', 'M', 'P', 'Z'] => some 23
  | ['J', 'U', 'M', 'P', 'I'] => some 24
  | ['D', 'U', 'P'] => some 25
  | ['A', 'L', 'L', 'O', 'C'] => some 26
  | _ => none

/-- The value of a decimal digit. -/
def digitValue (c : Char) : Option Nat :=
  if 48 ≤ c.toNat ∧ c.toNat ≤ 57 then some (c.toNat - 48) else none

/-- Decimal digits read on from the value `acc`. -/
def readDigits : Nat → List Char → Option Nat
  | acc, [] => some acc
  | acc, c :: cs =>
    match digitValue c with
    | some d => readDigits (10 * acc + d) cs
    | none => none

/-- One decimal digit or more. -/
def readNat (cs : List Char) : Option Nat :=
  match cs with
  | [] => none
  | _ :: _ => readDigits 0 cs

/-- A decimal integer with an optional leading `-`, in `[MIN, MAX]` (30_encoding.md R78). -/
def readArg (cs : List Char) : Option Int :=
  let v : Option Int :=
    match cs with
    | '-' :: ds => (readNat ds).map fun n => -(n : Int)
    | _ => (readNat cs).map fun n => (n : Int)
  match v with
  | some n => if argInRange n then some n else none
  | none => none

/-- The instruction of an opcode and the argument written after it: an argument-carrying opcode
needs one, the others take none (30_encoding.md R78, R74). -/
def assembled (opc : Nat) (arg : Option Int) : Option Instr :=
  match arg with
  | some v => if takesArg opc then instrOf opc v else none
  | none => if takesArg opc then none else instrOf opc 0

/-- The text of an argument after a mnemonic: nothing, ` n` or `(n)` (30_encoding.md R78). -/
def assembleWith (opc : Nat) (rest : List Char) : Option Instr :=
  match rest with
  | [] => assembled opc none
  | ' ' :: cs => (readArg cs).bind fun v => assembled opc (some v)
  | '(' :: cs =>
    match cs.reverse with
    | ')' :: ds => (readArg ds.reverse).bind fun v => assembled opc (some v)
    | _ => none
  | _ => none

/-- A mnemonic is a run of upper-case letters. -/
def isUpperChar (c : Char) : Bool := decide (65 ≤ c.toNat) && decide (c.toNat ≤ 90)

/-- One instruction, without blanks around it (30_encoding.md R78). -/
def assembleOne (cs : List Char) : Option Instr :=
  (mnemonicOpc (cs.takeWhile isUpperChar)).bind fun opc =>
    assembleWith opc (cs.dropWhile isUpperChar)

/-- Blanks around an instruction dropped, as in the spec's own `LOADC 10; LOADC 5; ADD`.
DESIGN CHOICE, log entry 17. -/
def trimBlanks (cs : List Char) : List Char :=
  ((cs.dropWhile (· == ' ')).reverse.dropWhile (· == ' ')).reverse

/-- The pieces of a text between `;` and newlines (30_encoding.md R78). -/
def splitText : List Char → List (List Char)
  | [] => [[]]
  | c :: cs =>
    if c == ';' || c == '\n' then [] :: splitText cs
    else
      match splitText cs with
      | [] => [[c]]
      | p :: ps => (c :: p) :: ps

/-- Every piece an instruction, or an assembly error. -/
def assemblePieces : List (List Char) → Option (List Instr)
  | [] => some []
  | p :: ps =>
    match assembleOne (trimBlanks p), assemblePieces ps with
    | some i, some is => some (i :: is)
    | _, _ => none

/-- The instructions of a program text, `none` for an assembly error (30_encoding.md R78). A blank
text is the empty program. DESIGN CHOICE, log entry 17. -/
def assemble (text : List Char) : Option (List Instr) :=
  if trimBlanks text = [] then some [] else assemblePieces (splitText text)

/-- The program image of a list of instructions: word `i` is `PROG[i]` (30_encoding.md R80). -/
def image (program : List Instr) : List InstrWord := program.map encode

end Sys2Proof.Machine
end

