-- ==== Sys2Proof/Machine/Transactions.lean ====
section
/-! DEFINITION. The block's transactions (10_state.md R32): RUN and the read-only inspection surface.
CONSTRUCT is `State.construct`, STEP is `step`, PROG_RD is `State.progRd`. -/

namespace Sys2Proof.Machine

/-- What INSPECT returns (10_state.md R32). -/
structure Inspection where
  sp : Int
  hp : Int
  ip : Int
  status : BitVec 16
  faultIp : Int
  deriving DecidableEq, Repr

/-- INSPECT, read-only (10_state.md R32, R33). -/
def State.inspect (s : State) : Inspection := ⟨s.sp, s.hp, s.ip, s.status, s.faultIp⟩

/-- STACK_RD(a), read-only: the content of stack cell `a`, live or dead; a free value where its
`defined` bit is clear; `none` outside the array (10_state.md R32; 93_implementation_defined.md
U3). `k` numbers the observation. Log entry 14. -/
def State.stackRd (s : State) (k : Nat) (a : Int) : Option Cell :=
  if inArray s.memMax a then
    match s.slotAt a.toNat with
    | some x => some (if x.defined then x.value else Config.inspectDraw k a.toNat)
    | none => some (Config.inspectDraw k a.toNat)
  else none

/-- What RUN returns (40_dispatch.md R113). -/
inductive RunAnswer where
  /-- The block is HALTED. -/
  | success
  /-- The block is FAULTED, with the latched FCODE. -/
  | fault (fcode : BitVec 4)
  deriving DecidableEq, Repr

/-- RUN, cut off after `fuel` steps: STEP while STATE is RUNNING (40_dispatch.md R113). A RUN of
the block ends when some fuel suffices, and need not end (R115). Log entry 15. -/
def runLoop : Nat → State → Host.Outcome State Fault Refusal
  | 0, s => .next s
  | fuel + 1, s =>
    if s.isRunning then
      match step s with
      | .next t => runLoop fuel t
      | .fault f => .fault f
      | .refused r => .refused r
    else .next s

/-- What RUN returns in the state it leaves, `none` while the block is still RUNNING
(40_dispatch.md R113). -/
def State.runAnswer (s : State) : Option RunAnswer :=
  if s.isRunning then none
  else if s.stateField = RunState.halted.code then some .success
  else some (.fault s.fcode)

/-- What a host may send (10_state.md R32, R36). PROG_RD is issued by the fetch phase only, so it
is no host's transaction. -/
inductive Transaction where
  | construct (words : List InstrWord)
  | step
  /-- RUN, observed for at most `fuel` steps. -/
  | run (fuel : Nat)
  | inspect
  /-- STACK_RD of cell `a`, as the host's `k`-th observation. -/
  | stackRd (k : Nat) (a : Int)
  deriving DecidableEq, Repr

/-- What a transaction returns (10_state.md R32, R36). -/
inductive Answer where
  | none
  | status (v : BitVec 16)
  | ran (r : Option RunAnswer)
  | inspected (r : Inspection)
  | cell (v : Option Cell)
  deriving DecidableEq, Repr

/-- One transaction, as one atomic transition (10_state.md R32): the block's next state and what
the host gets back. -/
def transact (t : Transaction) (s : State) : Host.Outcome (State × Answer) Fault Refusal :=
  match t with
  | .construct words => .next (State.construct words s.memMax, .none)
  | .step =>
    match step s with
    | .next t => .next (t, .status t.status)
    | .fault f => .fault f
    | .refused r => .refused r
  | .run fuel =>
    match runLoop fuel s with
    | .next t => .next (t, .ran t.runAnswer)
    | .fault f => .fault f
    | .refused r => .refused r
  | .inspect => .next (s, .inspected s.inspect)
  | .stackRd k a => .next (s, .cell (s.stackRd k a))

end Sys2Proof.Machine
end

