-- ==== Sys2Proof/Safety.lean ====
section
/-! DEFINITION. What a safe state and a safe run are, in the terms the statements use. -/

namespace Sys2Proof.Machine

/-- An integer fits a pointer register: `PTR_W = 33` bits, signed (00_scope.md R8). -/
def fitsPointer (v : Int) : Prop := -4294967296 ≤ v ∧ v ≤ 4294967295

/-- `sp`, `hp` and `ip` are where an instruction can be executed: the stack pointer in its range
(10_state.md R25), `hp` below the capacity, `ip` at a program word (40_dispatch.md R101). -/
abbrev State.AtInstruction (s : State) : Prop :=
  -1 ≤ s.sp ∧ s.sp < (s.memMax : Int) ∧ s.hp < (s.memMax : Int) ∧
  0 ≤ s.ip ∧ s.ip < s.len

/-- What holds of every state a constructed block reaches: the canonical form of the stack array
(20_memory.md R50), the heap and `hp` as reset left them (10_state.md R24, R26), the ranges of
`MEMMAX` and `LEN` (00_scope.md R5, R7), the reserved bits of STATUS (10_state.md R28), the width of the pointer
registers (00_scope.md R8), and what each of the three states promises (10_state.md R25, R30). -/
structure State.Inv (s : State) : Prop where
  /-- `MEMMAX >= 1` (92_eei_decisions.md, Parameters). -/
  capacity : 1 ≤ s.memMax
  stackForm : s.stack.wf s.memMax = true
  heapForm : s.heap.wf s.memMax = true
  heapUntouched : s.heap = []
  hpUntouched : s.hp = -1
  lenInRange : s.len ≤ cellMax
  reservedZero : s.reservedField = 0#2
  spLow : -1 ≤ s.sp
  /-- 33 bits hold `sp` for every capacity up to `2^31` cells. -/
  spFits : s.memMax ≤ 2147483648 → fitsPointer s.sp
  ipFits : fitsPointer s.ip
  faultIpFits : fitsPointer s.faultIp
  /-- RUNNING: `sp` inside the array, `ip` at a program word, no fault recorded. -/
  whenRunning : s.stateField = RunState.running.code →
    s.sp < (s.memMax : Int) ∧ 0 ≤ s.ip ∧ s.ip < s.len ∧
      s.fcode = 0#4 ∧ s.fop = 0#8 ∧ s.faultIp = 0
  /-- HALTED: `sp` inside the array, `ip = LEN`, no fault recorded. -/
  whenHalted : s.stateField = RunState.halted.code →
    s.sp < (s.memMax : Int) ∧ s.ip = s.len ∧
      s.fcode = 0#4 ∧ s.fop = 0#8 ∧ s.faultIp = 0
  /-- FAULTED: one of the six codes, FAULT_IP at a program word. -/
  whenFaulted : s.stateField = RunState.faulted.code →
    1 ≤ s.fcode.toNat ∧ s.fcode.toNat ≤ 6 ∧ 0 ≤ s.faultIp ∧ s.faultIp < s.len
  /-- STATE 3 is never produced. -/
  stateLegal : s.stateField ≠ 3#2

/-- A state that the host can bring a block to: CONSTRUCT, on a block of any capacity the spec
allows, with a program of a length it allows, then steps (10_state.md R36,
70_reset_and_hazards.md R404; 92_eei_decisions.md, Parameters). -/
inductive Reachable : State → Prop where
  | construct (words : List InstrWord) (memMax : Nat) (h : lengthInRange words = true)
      (hm : 1 ≤ memMax) : Reachable (State.construct words memMax)
  | step (s t : State) (h : Reachable s) (hs : step s = .next t) : Reachable t

/-- Two states differ only where no instruction can look: in the contents of dead cells and of
undefined cells, and nowhere else (93_implementation_defined.md U1 to U3, 20_memory.md R53). -/
def State.AgreeOnLive (s t : State) : Prop :=
  s.sp = t.sp ∧ s.hp = t.hp ∧ s.ip = t.ip ∧ s.status = t.status ∧ s.faultIp = t.faultIp ∧
  s.prog = t.prog ∧ s.memMax = t.memMax ∧ s.draws = t.draws ∧ s.heap = t.heap ∧
  ∀ a : Nat, a < s.memMax → (a : Int) ≤ s.sp →
    s.isDefined a = t.isDefined a ∧
    (s.isDefined a = true → s.slotAt a = t.slotAt a)

end Sys2Proof.Machine
end

