-- ==== Sys2Proof/Certificates/Slice0/Obligations.lean ====
section
/-! DEFINITION. The statements about the machine. Each result is written in the rules' own terms:
numeric codes, plain integer arithmetic and the content of every cell afterwards. -/

namespace Sys2Proof.Statements

open Sys2Proof.Machine

/-! ## The words the statements use -/

/-- The instruction completed (40_dispatch.md R109): `sp` and `ip` are as given, STATE is HALTED or
RUNNING by `ip = LEN`, every other register and STATUS field is kept, and `draws` DRAWs have been
taken in all (the model's own count, log entry 4). -/
def Completed (s t : State) (sp ip : Int) (draws : Nat) : Prop :=
  t.sp = sp ∧ t.ip = ip ∧ t.hp = s.hp ∧ t.heap = s.heap ∧ t.prog = s.prog ∧
  t.memMax = s.memMax ∧ t.faultIp = s.faultIp ∧ t.fcode = s.fcode ∧ t.fop = s.fop ∧
  t.reservedField = 0#2 ∧
  t.stateField = (if ip = s.len then 1#2 else 0#2) ∧ t.draws = draws

/-- Fault entry was taken (60_exceptions.md R310) with the given FCODE and FOP: FAULT_IP is the
index of the instruction, `sp` and `ip` are as given, every other register is kept. -/
def Faulted (fcode : BitVec 4) (fop : BitVec 8) (s t : State) (sp ip : Int) (draws : Nat) : Prop :=
  t.sp = sp ∧ t.ip = ip ∧ t.hp = s.hp ∧ t.heap = s.heap ∧ t.prog = s.prog ∧
  t.memMax = s.memMax ∧ t.faultIp = s.ip ∧ t.fcode = fcode ∧ t.fop = fop ∧
  t.reservedField = 0#2 ∧
  t.stateField = 2#2 ∧ t.draws = draws

/-- Every stack cell keeps its content and its `defined` bit. -/
def CellsKept (s t : State) : Prop := ∀ b : Nat, t.slotAt b = s.slotAt b

/-- Stack cell `a` holds `v`, defined; every other cell keeps its content and its `defined` bit. -/
def CellWritten (s t : State) (a : Int) (v : Cell) : Prop :=
  ∀ b : Nat, t.slotAt b = if (b : Int) = a then some ⟨v, true⟩ else s.slotAt b

/-- ALLOC's effect on the cells from `sp + 1` to `sp + k` that exist: the `defined` bit is cleared,
the content stays. Every other cell keeps both (43_stack_memory.md R207). -/
def CellsExposed (s t : State) (k : Int) : Prop :=
  ∀ b : Nat,
    if s.sp < (b : Int) ∧ (b : Int) ≤ s.sp + k ∧ b < s.memMax then
      t.isDefined b = false ∧ (t.slotAt b).map (·.value) = (s.slotAt b).map (·.value)
    else t.slotAt b = s.slotAt b

/-- The instruction faults before it has any effect (40_dispatch.md R104). -/
def PreFaults (i : Instr) (fcode : BitVec 4) (opc : BitVec 8) (s : State) (draws : Nat) : Prop :=
  ∃ t, exec i s = .next t ∧ Faulted fcode opc s t s.sp (s.ip + 1) draws ∧ CellsKept s t

/-- The word of an opcode with argument `v`, as a number (30_encoding.md R71, R73). -/
def WordWithArg (i : Instr) (opc : Nat) (v : Int) : Prop :=
  (encode i).toNat = (v % 4294967296).toNat * 4294967296 + opc

/-- A word is well-formed (30_encoding.md R75), read off its number: OPC in the low 8 bits, RSV in
the next 24, ARG in the high 32. -/
def WordIsWellFormed (w : InstrWord) : Prop :=
  w.toNat % 256 ≤ 26 ∧ w.toNat / 256 % 16777216 = 0 ∧
  (w.toNat % 256 ∉ [0, 19, 20, 22, 23, 24, 26] → w.toNat / 4294967296 = 0)

/-- The block is RUNNING and the word at `ip` is `w`. -/
def Fetches (s : State) (w : InstrWord) : Prop :=
  s.stateField = 0#2 ∧ 0 ≤ s.ip ∧ s.prog[s.ip.toNat]? = some w

/-- A binary ALU instruction (40_dispatch.md R110) with OPC number `opc`, depth requirement `need`
and function `f` of the signed operands, `first` the deeper one. `first` is read before `second`. -/
def BinaryRule (i : Instr) (opc : Nat) (need : Int) (f : Int → Int → Int) : Prop :=
  (encode i).toNat = opc ∧
  ∀ s : State, s.AtInstruction →
    let s1 := s.afterRead (s.sp - 1)
    let first := (s.readValue (s.sp - 1)).toInt
    let second := (s1.readValue s.sp).toInt
    let draws := (s1.afterRead s.sp).draws
    (s.sp < need → PreFaults i 1#4 (BitVec.ofNat 8 opc) s s.draws) ∧
    (need ≤ s.sp → ∃ t, exec i s = .next t ∧ Completed s t (s.sp - 1) (s.ip + 1) draws ∧
      CellWritten s t (s.sp - 1) (BitVec.ofInt 32 (f first second)))

/-- DIV or MOD (41_arithmetic.md R143, R144): as `BinaryRule`, and a zero divisor faults after the
depth check. -/
def DivisionRule (i : Instr) (opc : Nat) (f : Int → Int → Int) : Prop :=
  (encode i).toNat = opc ∧
  ∀ s : State, s.AtInstruction →
    let s1 := s.afterRead (s.sp - 1)
    let first := (s.readValue (s.sp - 1)).toInt
    let second := (s1.readValue s.sp).toInt
    let draws := (s1.afterRead s.sp).draws
    (s.sp < 1 → PreFaults i 1#4 (BitVec.ofNat 8 opc) s s.draws) ∧
    (1 ≤ s.sp → second = 0 → PreFaults i 3#4 (BitVec.ofNat 8 opc) s draws) ∧
    (1 ≤ s.sp → second ≠ 0 →
      ∃ t, exec i s = .next t ∧ Completed s t (s.sp - 1) (s.ip + 1) draws ∧
        CellWritten s t (s.sp - 1) (BitVec.ofInt 32 (f first second)))

/-- A unary ALU instruction (40_dispatch.md R111), in place. -/
def UnaryRule (i : Instr) (opc : Nat) (f : Int → Int) : Prop :=
  (encode i).toNat = opc ∧
  ∀ s : State, s.AtInstruction →
    let top := (s.readValue s.sp).toInt
    (s.sp < 0 → PreFaults i 1#4 (BitVec.ofNat 8 opc) s s.draws) ∧
    (0 ≤ s.sp → ∃ t, exec i s = .next t ∧
      Completed s t s.sp (s.ip + 1) (s.afterRead s.sp).draws ∧
      CellWritten s t s.sp (BitVec.ofInt 32 (f top)))

/-- A push of `v` by instruction `i` after which `draws` DRAWs have been taken: with room the new
top cell holds `v`, and at full capacity nothing is written, `sp = MEMMAX` is kept and
MemoryOverflow is raised (20_memory.md R54, 40_dispatch.md R108). -/
def PushRule (i : Instr) (opc : BitVec 8) (s : State) (v : Cell) (draws : Nat) : Prop :=
  (s.sp + 1 < (s.memMax : Int) → ∃ t, exec i s = .next t ∧
    Completed s t (s.sp + 1) (s.ip + 1) draws ∧ CellWritten s t (s.sp + 1) v) ∧
  (s.sp + 1 = (s.memMax : Int) → ∃ t, exec i s = .next t ∧
    Faulted 4#4 opc s t (s.sp + 1) (s.ip + 1) draws ∧ CellsKept s t)

/-- A push of a copy `v` of the top cell: as `PushRule`, and the copied cell then holds `v` too, so
that the two cells hold the same value also where `v` is a DRAW (43_stack_memory.md R206;
95_test_vectors.md M33; log entry 19). -/
def CopyRule (i : Instr) (opc : BitVec 8) (s : State) (v : Cell) (draws : Nat) : Prop :=
  (s.sp + 1 < (s.memMax : Int) → ∃ t, exec i s = .next t ∧
    Completed s t (s.sp + 1) (s.ip + 1) draws ∧
    ∀ b : Nat, t.slotAt b =
      if (b : Int) = s.sp ∨ (b : Int) = s.sp + 1 then some ⟨v, true⟩ else s.slotAt b) ∧
  (s.sp + 1 = (s.memMax : Int) → ∃ t, exec i s = .next t ∧
    Faulted 4#4 opc s t (s.sp + 1) (s.ip + 1) draws ∧ CellsKept s t)

/-- The instruction is one of the three that write `ip`. -/
def IsJump : Instr → Prop
  | .jump _ => True
  | .jumpz _ => True
  | .jumpi _ => True
  | _ => False

end Sys2Proof.Statements

open Sys2Proof Sys2Proof.Machine Sys2Proof.Statements

/-! ## What each instruction does -/

/-- ADD, SUB and MUL (41_arithmetic.md R140 to R142): the low 32 bits of the exact result replace
the deeper operand; below two live cells StackUnderflow, with no effect. -/
def Obligations.AddSubMulReplaceOperandsByWrappedResult : Prop :=
  BinaryRule .add 1 1 (fun a b => a + b) ∧
  BinaryRule .sub 2 1 (fun a b => a - b) ∧
  BinaryRule .mul 3 1 (fun a b => a * b)

/-- DIV and MOD (R143, R144): quotient rounded toward zero, remainder with the dividend's sign; the
depth check comes before the divisor test, and both faults leave every cell and register but those
of fault entry. That the reads of an instruction that faults stay counted as DRAWs is the model's
own choice, log entry 9. -/
def Obligations.DivModTruncateAndFaultOnZero : Prop :=
  DivisionRule .div 4 (fun a b => a.tdiv b) ∧ DivisionRule .mod 5 (fun a b => a.tmod b)

/-- NEG (41_arithmetic.md R145): the top cell is negated in place, modulo 2^32. -/
def Obligations.NegReplacesTopByWrappedNegation : Prop :=
  UnaryRule .neg 16 (fun v => -v)

/-- AND and OR (42_logic_compare.md R171, R172) act on truth values and push exactly 1 or 0. -/
def Obligations.AndOrActOnTruthValues : Prop :=
  BinaryRule .and 6 1 (fun a b => if a ≠ 0 ∧ b ≠ 0 then 1 else 0) ∧
  BinaryRule .or 7 1 (fun a b => if a ≠ 0 ∨ b ≠ 0 then 1 else 0)

/-- XOR (42_logic_compare.md R173) pops two truth values, and needs three live cells. -/
def Obligations.XorNeedsThreeLiveCells : Prop :=
  BinaryRule .xor 8 2 (fun a b => if (a = 0 ↔ b = 0) then 0 else 1)

/-- The six comparisons (42_logic_compare.md R174 to R179) push 1 if the signed relation holds,
else 0; LE is strict. -/
def Obligations.ComparisonsUseSignedOrder : Prop :=
  BinaryRule .eq 9 1 (fun a b => if a = b then 1 else 0) ∧
  BinaryRule .neq 10 1 (fun a b => if a = b then 0 else 1) ∧
  BinaryRule .le 11 1 (fun a b => if a < b then 1 else 0) ∧
  BinaryRule .leq 12 1 (fun a b => if a ≤ b then 1 else 0) ∧
  BinaryRule .gr 13 1 (fun a b => if b < a then 1 else 0) ∧
  BinaryRule .geq 14 1 (fun a b => if b ≤ a then 1 else 0)

/-- NOT (42_logic_compare.md R180): 0 if the top is nonzero, else 1, in place. -/
def Obligations.NotIsLogicalNegation : Prop :=
  UnaryRule .not 15 (fun v => if v = 0 then 1 else 0)

/-- LOADC(c) (43_stack_memory.md R200) pushes `c`, for every encodable `c`; at full capacity it
raises MemoryOverflow with `sp = MEMMAX` kept and nothing written. -/
def Obligations.LoadcPushesItsConstant : Prop :=
  ∀ c : Int, argInRange c = true → WordWithArg (.loadc c) 0 c ∧ (BitVec.ofInt 32 c).toInt = c ∧
    ∀ s : State, s.AtInstruction → PushRule (.loadc c) 0x00#8 s (BitVec.ofInt 32 c) s.draws

/-- LOAD (43_stack_memory.md R201): the address on top is replaced by the value of the live cell it
names, `a = sp` allowed; depth before address, each fault leaving every cell and `sp`. That the
read of an address that faults stays counted is the model's own choice, log entry 9. -/
def Obligations.LoadReplacesAddressByCellValue : Prop :=
  (encode .load).toNat = 17 ∧
  ∀ s : State, s.AtInstruction →
    let a := (s.readValue s.sp).toInt
    let s1 := s.afterRead s.sp
    (s.sp < 0 → PreFaults .load 1#4 0x11#8 s s.draws) ∧
    (0 ≤ s.sp → (s.sp < a ∨ a < 0) → PreFaults .load 2#4 0x11#8 s s1.draws) ∧
    (0 ≤ s.sp → 0 ≤ a → a ≤ s.sp → ∃ t, exec .load s = .next t ∧
      Completed s t s.sp (s.ip + 1) (s1.afterRead a).draws ∧
      CellWritten s t s.sp (s1.readValue a))

/-- STORE (43_stack_memory.md R202): pops the address and the value and writes the value to the
addressed cell, at most `sp - 1`; depth before address, each fault leaving every cell and `sp`.
That the read of an address that faults stays counted is the model's own choice, log entry 9. -/
def Obligations.StorePopsBothAndWritesTheCell : Prop :=
  (encode .store).toNat = 18 ∧
  ∀ s : State, s.AtInstruction →
    let a := (s.readValue s.sp).toInt
    let s1 := s.afterRead s.sp
    (s.sp < 1 → PreFaults .store 1#4 0x12#8 s s.draws) ∧
    (1 ≤ s.sp → (s.sp - 1 < a ∨ a < 0) → PreFaults .store 2#4 0x12#8 s s1.draws) ∧
    (1 ≤ s.sp → 0 ≤ a → a ≤ s.sp - 1 → ∃ t, exec .store s = .next t ∧
      Completed s t (s.sp - 2) (s.ip + 1) (s1.afterRead (s.sp - 1)).draws ∧
      CellWritten s t a (s1.readValue (s.sp - 1)))

/-- LOADA(a) (43_stack_memory.md R203) pushes the value of live cell `a`; it has no depth check, and
`a = sp` behaves like DUP (an undefined top cell: log entry 19). -/
def Obligations.LoadaPushesTheNamedCell : Prop :=
  ∀ a : Int, argInRange a = true → WordWithArg (.loada a) 19 a ∧
    ∀ s : State, s.AtInstruction →
      ((s.sp < a ∨ a < 0) → PreFaults (.loada a) 2#4 0x13#8 s s.draws) ∧
      (0 ≤ a → a < s.sp →
        PushRule (.loada a) 0x13#8 s (s.readValue a) (s.afterRead a).draws) ∧
      (0 ≤ a → a = s.sp →
        CopyRule (.loada a) 0x13#8 s (s.readValue a) (s.afterRead a).draws)

/-- STOREA(a) (43_stack_memory.md R204) copies the top cell into live cell `a` and pops nothing;
depth before address, each fault without effect. -/
def Obligations.StoreaCopiesTopIntoTheNamedCell : Prop :=
  ∀ a : Int, argInRange a = true → WordWithArg (.storea a) 20 a ∧
    ∀ s : State, s.AtInstruction →
      (s.sp < 0 → PreFaults (.storea a) 1#4 0x14#8 s s.draws) ∧
      (0 ≤ s.sp → (s.sp < a ∨ a < 0) → PreFaults (.storea a) 2#4 0x14#8 s s.draws) ∧
      (0 ≤ s.sp → 0 ≤ a → a ≤ s.sp → ∃ t, exec (.storea a) s = .next t ∧
        Completed s t s.sp (s.ip + 1) (s.afterRead s.sp).draws ∧
        CellWritten s t a (s.readValue s.sp))

/-- POP (43_stack_memory.md R205) lowers `sp` by 1; the dropped cell keeps its content. -/
def Obligations.PopLowersSpAndKeepsCells : Prop :=
  (encode .pop).toNat = 21 ∧
  ∀ s : State, s.AtInstruction →
    (s.sp < 0 → PreFaults .pop 1#4 0x15#8 s s.draws) ∧
    (0 ≤ s.sp → ∃ t, exec .pop s = .next t ∧
      Completed s t (s.sp - 1) (s.ip + 1) s.draws ∧ CellsKept s t)

/-- DUP (43_stack_memory.md R206) pushes a copy of the top cell, with one DRAW at most; the two cells
then hold the same value (an undefined top cell: log entry 19). -/
def Obligations.DupPushesACopyOfTop : Prop :=
  (encode .dup).toNat = 25 ∧
  ∀ s : State, s.AtInstruction →
    (s.sp < 0 → PreFaults .dup 1#4 0x19#8 s s.draws) ∧
    (0 ≤ s.sp → CopyRule .dup 0x19#8 s (s.readValue s.sp) (s.afterRead s.sp).draws)

/-- ALLOC(k) (43_stack_memory.md R207) moves `sp` by exactly `k` and leaves the cells it exposes
undefined; below -1 StackUnderflow without effect, at MEMMAX or above MemoryOverflow with the
effect kept. -/
def Obligations.AllocMovesSpAndExposesUndefinedCells : Prop :=
  ∀ k : Int, argInRange k = true → WordWithArg (.alloc k) 26 k ∧
    ∀ s : State, s.AtInstruction →
      (s.sp + k < -1 → PreFaults (.alloc k) 1#4 0x1A#8 s s.draws) ∧
      (-1 ≤ s.sp + k → s.sp + k < (s.memMax : Int) → ∃ t, exec (.alloc k) s = .next t ∧
        Completed s t (s.sp + k) (s.ip + 1) s.draws ∧ CellsExposed s t k) ∧
      ((s.memMax : Int) ≤ s.sp + k → ∃ t, exec (.alloc k) s = .next t ∧
        Faulted 4#4 0x1A#8 s t (s.sp + k) (s.ip + 1) s.draws ∧ CellsExposed s t k)

/-- JUMP(t) (44_control.md R240): `ip = t` for `0 <= t < LEN`; `t >= LEN` faults without effect, a
negative `t` faults after `ip <- t`. -/
def Obligations.JumpSetsIpToItsTarget : Prop :=
  ∀ t : Int, argInRange t = true → WordWithArg (.jump t) 22 t ∧
    ∀ s : State, s.AtInstruction →
      (s.len ≤ t → PreFaults (.jump t) 5#4 0x16#8 s s.draws) ∧
      (t < 0 → ∃ u, exec (.jump t) s = .next u ∧
        Faulted 5#4 0x16#8 s u s.sp t s.draws ∧ CellsKept s u) ∧
      (0 ≤ t → t < s.len → ∃ u, exec (.jump t) s = .next u ∧
        Completed s u s.sp t s.draws ∧ CellsKept s u)

/-- JUMPZ(t) (44_control.md R241): the target is checked first and in either case, the condition is
popped in either case, and only 0 jumps. -/
def Obligations.JumpzPopsAndJumpsOnZero : Prop :=
  ∀ t : Int, argInRange t = true → WordWithArg (.jumpz t) 23 t ∧
    ∀ s : State, s.AtInstruction →
      let c := (s.readValue s.sp).toInt
      let draws := (s.afterRead s.sp).draws
      (s.len ≤ t → PreFaults (.jumpz t) 5#4 0x17#8 s s.draws) ∧
      (t < s.len → s.sp < 0 → PreFaults (.jumpz t) 1#4 0x17#8 s s.draws) ∧
      (t < s.len → 0 ≤ s.sp → c ≠ 0 → ∃ u, exec (.jumpz t) s = .next u ∧
        Completed s u (s.sp - 1) (s.ip + 1) draws ∧ CellsKept s u) ∧
      (0 ≤ t → t < s.len → 0 ≤ s.sp → c = 0 → ∃ u, exec (.jumpz t) s = .next u ∧
        Completed s u (s.sp - 1) t draws ∧ CellsKept s u) ∧
      (t < 0 → 0 ≤ s.sp → c = 0 → ∃ u, exec (.jumpz t) s = .next u ∧
        Faulted 5#4 0x17#8 s u (s.sp - 1) t draws ∧ CellsKept s u)

/-- JUMPI(t) (44_control.md R242): jumps to the exact sum `t + o`, `o` popped; the sum is tested
after the jump and the pop, against `[0, LEN]`. -/
def Obligations.JumpiJumpsToTheExactSum : Prop :=
  ∀ t : Int, argInRange t = true → WordWithArg (.jumpi t) 24 t ∧
    ∀ s : State, s.AtInstruction →
      let o := (s.readValue s.sp).toInt
      let draws := (s.afterRead s.sp).draws
      (s.len ≤ t → PreFaults (.jumpi t) 5#4 0x18#8 s s.draws) ∧
      (t < s.len → s.sp < 0 → PreFaults (.jumpi t) 1#4 0x18#8 s s.draws) ∧
      (t < s.len → 0 ≤ s.sp → 0 ≤ t + o → t + o ≤ s.len → ∃ u, exec (.jumpi t) s = .next u ∧
        Completed s u (s.sp - 1) (t + o) draws ∧ CellsKept s u) ∧
      (t < s.len → 0 ≤ s.sp → (t + o < 0 ∨ s.len < t + o) → ∃ u, exec (.jumpi t) s = .next u ∧
        Faulted 5#4 0x18#8 s u (s.sp - 1) (t + o) draws ∧ CellsKept s u)

/-! ## The step -/

/-- When the word at `ip` decodes to `i`, a step is `exec i`, and nothing is added around it. -/
def Obligations.StepRunsTheDecodedInstruction : Prop :=
  ∀ (s : State) (w : InstrWord) (i : Instr),
    Fetches s w → decode w = .ok i → step s = exec i s

/-- A malformed word (30_encoding.md R75) raises UnsupportedOperation in the step that fetched it,
before any effect, with its raw OPC byte in FOP (60_exceptions.md R306, 30_encoding.md R76). -/
def Obligations.MalformedWordRaisesUnsupportedOperation : Prop :=
  ∀ (s : State) (w : InstrWord), Fetches s w → ¬ WordIsWellFormed w →
    ∃ t, step s = .next t ∧
      Faulted 6#4 (BitVec.ofNat 8 (w.toNat % 256)) s t s.sp (s.ip + 1) s.draws ∧ CellsKept s t

/-- A STEP outside RUNNING changes no state, and the transaction returns the unchanged STATUS
(40_dispatch.md R112). -/
def Obligations.StepOutsideRunningChangesNothing : Prop :=
  ∀ s : State, s.stateField ≠ 0#2 →
    step s = .next s ∧ transact .step s = .next (s, .status s.status)

/-- A step that does not fault leaves `ip` in `[0, LEN]` and sets STATE by `ip = LEN`, with FCODE,
FOP and FAULT_IP unchanged (40_dispatch.md R109). -/
def Obligations.UnfaultedStepSetsStateByIp : Prop :=
  ∀ s t : State, s.stateField = 0#2 → step s = .next t → t.stateField ≠ 2#2 →
    t.sp < (s.memMax : Int) ∧ t.hp < (s.memMax : Int) ∧ 0 ≤ t.ip ∧ t.ip ≤ t.len ∧
    t.stateField = (if t.ip = t.len then 1#2 else 0#2) ∧
    t.fcode = s.fcode ∧ t.fop = s.fop ∧ t.faultIp = s.faultIp

/-- A step that faults latches the faulting index in FAULT_IP and the word's OPC byte in FOP, with
one of the six codes in FCODE (60_exceptions.md, fault entry). -/
def Obligations.FaultLatchesIndexAndOpcByte : Prop :=
  ∀ (s t : State) (w : InstrWord), Fetches s w → step s = .next t → t.stateField = 2#2 →
    t.faultIp = s.ip ∧ t.fop = BitVec.ofNat 8 (w.toNat % 256) ∧
    1 ≤ t.fcode.toNat ∧ t.fcode.toNat ≤ 6 ∧ t.reservedField = 0#2

/-- A step that ends with StackUnderflow, IllegalStackMemoryAccess, DivisionByZero or
UnsupportedOperation has had no effect but the increment of `ip` and the fault entry. -/
def Obligations.PreCheckFaultLeavesNoEffect : Prop :=
  ∀ s t : State, s.stateField = 0#2 → step s = .next t → t.stateField = 2#2 →
    (t.fcode = 1#4 ∨ t.fcode = 2#4 ∨ t.fcode = 3#4 ∨ t.fcode = 6#4) →
    t.sp = s.sp ∧ t.hp = s.hp ∧ t.ip = s.ip + 1 ∧ t.heap = s.heap ∧ t.prog = s.prog ∧
    CellsKept s t

/-- After MemoryOverflow a capacity is exceeded, and after IllegalInstructionAccess either `ip` is
out of range with the effect kept, or the instruction has had no effect. -/
def Obligations.PostCheckFaultShowsItsCause : Prop :=
  ∀ s t : State, s.stateField = 0#2 → step s = .next t → t.stateField = 2#2 →
    (t.fcode = 4#4 → (s.memMax : Int) ≤ t.sp ∨ (s.memMax : Int) ≤ t.hp) ∧
    (t.fcode = 5#4 → (t.ip < 0 ∨ t.len < t.ip) ∨
      (t.sp = s.sp ∧ t.ip = s.ip + 1 ∧ CellsKept s t))

/-- Which instructions can raise which fault (60_exceptions.md, the table of fault causes). -/
def Obligations.FaultsComeFromTheirOpcodesOnly : Prop :=
  ∀ (i : Instr) (s t : State), s.AtInstruction → exec i s = .next t → t.stateField = 2#2 →
    (t.fcode = 1#4 → (opcOf i).toNat ∉ [0, 19, 22]) ∧
    (t.fcode = 2#4 → (opcOf i).toNat ∈ [17, 18, 19, 20]) ∧
    (t.fcode = 3#4 → (opcOf i).toNat ∈ [4, 5]) ∧
    (t.fcode = 4#4 → (opcOf i).toNat ∈ [0, 19, 25, 26]) ∧
    (t.fcode = 5#4 → (opcOf i).toNat ∈ [22, 23, 24]) ∧
    t.fcode ≠ 6#4

/-- Every instruction but the three jumps continues at `ip + 1` (40_dispatch.md R102). -/
def Obligations.OnlyJumpsLeaveTheSequence : Prop :=
  ∀ (i : Instr) (s t : State), ¬ IsJump i → exec i s = .next t → t.ip = s.ip + 1

/-- No step changes the program, the capacity, the heap or `hp` (10_state.md R31, R20, R24, R26). -/
def Obligations.StepKeepsProgramHeapAndHp : Prop :=
  ∀ s t : State, step s = .next t →
    t.prog = s.prog ∧ t.memMax = s.memMax ∧ t.heap = s.heap ∧ t.hp = s.hp

/-! ## Decoding and encoding -/

/-- The decoder accepts exactly the well-formed words (30_encoding.md R75). -/
def Obligations.DecoderAcceptsExactlyWellFormedWords : Prop :=
  ∀ w : InstrWord, (∃ i, decode w = .ok i) ↔ WordIsWellFormed w

/-- Decoding the encoding of a well-formed instruction gives it back, every operand at every
value. -/
def Obligations.DecodeInvertsEncode : Prop :=
  ∀ i : Instr, i.wellFormed = true → decode (encode i) = .ok i

/-- A decoded word is the encoding of its instruction, which is well-formed: no bit of a word is
ignored. -/
def Obligations.EncodeInvertsDecode : Prop :=
  ∀ (w : InstrWord) (i : Instr), decode w = .ok i → encode i = w ∧ i.wellFormed = true

/-- The `match` and `mask` columns of the opcode table select row `n` exactly when the decoder
gives the instruction with OPC number `n` (30_encoding.md R77). -/
def Obligations.OpcodeTableRowsAgreeWithTheDecoder : Prop :=
  ∀ (w : InstrWord) (n : Nat),
    (∃ i, decode w = .ok i ∧ (opcOf i).toNat = n) ↔
    ∃ r ∈ opcodeTable, r.opc = n ∧ w &&& r.mask = r.pattern

/-- The spec's own encoding vectors (95_test_vectors.md, section 2) decode as it says. -/
def Obligations.SpecEncodingVectorsDecode : Prop :=
  decodeWord 0x0000000A00000000#64 = some (.loadc 10) ∧
  decodeWord 0xFFFFFFFF00000000#64 = some (.loadc (-1)) ∧
  decodeWord 0x8000000000000000#64 = some (.loadc (-2147483648)) ∧
  decodeWord 0x0000000000000001#64 = some .add ∧
  decodeWord 0x000000000000001A#64 = some (.alloc 0) ∧
  decodeWord 0xFFFFFFFE0000001A#64 = some (.alloc (-2)) ∧
  decodeWord 0x0000000300000016#64 = some (.jump 3) ∧
  decodeWord 0x0000000100000001#64 = none ∧
  decodeWord 0x000000000000001B#64 = none ∧
  decodeWord 0x00000000000000FF#64 = none ∧
  decodeWord 0x0000000000000100#64 = none ∧
  decodeWord 0x0000000000000015#64 = some .pop

/-! ## Reset and invariants -/

/-- CONSTRUCT gives the reset values of 10_state.md R35 and loads the program; with `LEN = 0` the
block is HALTED. Every stack cell is undefined; R35 gives no content of a stack or heap cell. The
capacity is the block's parameter, by default 65536 (00_scope.md R5). -/
def Obligations.ConstructGivesTheResetValues : Prop :=
  ∀ (words : List InstrWord) (memMax : Nat),
    let s := State.construct words memMax
    s.sp = -1 ∧ s.hp = -1 ∧ s.ip = 0 ∧
    s.stateField = (if words = [] then 1#2 else 0#2) ∧
    s.reservedField = 0#2 ∧ s.fcode = 0#4 ∧ s.fop = 0#8 ∧ s.faultIp = 0 ∧
    (∀ a : Nat, s.isDefined a = false) ∧ s.prog = words ∧ s.len = words.length ∧
    s.memMax = memMax ∧ (State.construct words).memMax = 65536

/-- Every constructed machine of an allowed capacity with a program of an allowed length meets the
invariant, and so does `State.reset`. -/
def Obligations.ConstructedStatesMeetTheInvariant : Prop :=
  (∀ (words : List InstrWord) (memMax : Nat), lengthInRange words = true → 1 ≤ memMax →
    (State.construct words memMax).Inv) ∧
  State.reset.Inv

/-- Every step keeps the invariant `State.Inv`, from every state that meets it. -/
def Obligations.StepKeepsTheInvariant : Prop :=
  ∀ s t : State, s.Inv → step s = .next t → t.Inv

/-- From every state that meets the invariant a step answers a next state: the model never stops
and never refuses there, so a fetch and every cell access are in range. -/
def Obligations.InvariantStatesAlwaysStep : Prop :=
  ∀ s : State, s.Inv → ∃ t, step s = .next t

/-- In every state the host can bring the block to, RUNNING implies that a program word stands at
`ip` and that `sp` and `hp` are below the capacity, and the next step answers a next state
(40_dispatch.md R101, 10_state.md R25). -/
def Obligations.ReachableStatesFetchInRange : Prop :=
  ∀ s : State, Reachable s →
    (s.stateField = 0#2 → s.AtInstruction ∧ ∃ w, Fetches s w) ∧ ∃ t, step s = .next t

/-! ## Memory -/

/-- MemRead (20_memory.md R53): a defined cell gives its value and changes nothing; an undefined
one gives the next free value and takes it. The form of the free value is the model's choice,
log entry 4. -/
def Obligations.MemReadGivesTheValueOrADraw : Prop :=
  ∀ (a : Nat) (s : State), a < s.memMax →
    (∀ v, s.slotAt a = some ⟨v, true⟩ → memRead a s = some (v, s)) ∧
    (s.isDefined a = false →
      memRead a s = some (Config.draw s.draws, { s with draws := s.draws + 1 }))

/-- MemWrite (20_memory.md R54): inside the array the one cell gets the value and its `defined`
bit; outside nothing is written. No register changes. -/
def Obligations.MemWriteWritesOneCellOrNothing : Prop :=
  ∀ (a : Int) (v : Cell) (s : State),
    (∃ m, memWrite a v s = { s with stack := m }) ∧
    (0 ≤ a → a < (s.memMax : Int) → CellWritten s (memWrite a v s) a v) ∧
    ((a < 0 ∨ (s.memMax : Int) ≤ a) → memWrite a v s = s)

/-- A MemRead after a MemWrite of the same cell gives the value written, and of another cell what
it gave before (20_memory.md R57). That an undefined cell gives the same DRAW as it would have
before the write is the model's choice: a DRAW is a function of the count of DRAWs, log entry 4. -/
def Obligations.ReadAfterWrite : Prop :=
  ∀ (a b : Nat) (v : Cell) (s : State), a < s.memMax → b < s.memMax →
    ∃ u, memRead b (memWrite a v s) =
        some (if b = a then v else s.readValue b, u) ∧ u.slotAt a = some ⟨v, true⟩

/-- Instructions see only live, defined cells: two states that differ only in dead or undefined
cell contents step alike (93_implementation_defined.md U1 to U3). -/
def Obligations.DeadAndUndefinedContentsAreInvisible : Prop :=
  ∀ s t : State, s.AgreeOnLive t →
    (∃ s' t', step s = .next s' ∧ step t = .next t' ∧ s'.AgreeOnLive t') ∨
    (∃ f, step s = .fault f ∧ step t = .fault f)

/-- DUP followed by POP restores `sp` and every live cell (43_stack_memory.md R206). Where the top
cell was undefined it then holds the value copied: log entry 19. -/
def Obligations.DupThenPopRestoresLiveCells : Prop :=
  ∀ s : State, s.AtInstruction → 0 ≤ s.sp → s.sp + 1 < (s.memMax : Int) →
    s.ip + 1 < s.len →
    ∃ t u, exec .dup s = .next t ∧ exec .pop t = .next u ∧ u.sp = s.sp ∧
      ∀ a : Nat, (a : Int) ≤ s.sp →
        u.slotAt a = (if (a : Int) = s.sp then some ⟨s.readValue s.sp, true⟩ else s.slotAt a) ∧
        (s.isDefined a = true → u.slotAt a = s.slotAt a)

/-! ## Values -/

/-- A result written to a cell is read back as `wrap` of it (00_scope.md R10): in `[MIN, MAX]` and
congruent to the exact result modulo 2^32. -/
def Obligations.ResultsWrapToSignedCells : Prop :=
  ∀ v : Int, (cellOf v).toInt = (v + 2147483648) % 4294967296 - 2147483648 ∧
    cellMin ≤ (cellOf v).toInt ∧ (cellOf v).toInt ≤ cellMax ∧
    (4294967296 ∣ (cellOf v).toInt - v)

/-- Division and remainder at every sign combination (41_arithmetic.md R147). -/
def Obligations.DivisionRoundsTowardZero : Prop :=
  ∀ a b : Int, cellMin ≤ a → a ≤ cellMax → cellMin ≤ b → b ≤ cellMax → b ≠ 0 →
    a = b * truncdiv a b + rem a b ∧
    (truncdiv a b).natAbs = a.natAbs / b.natAbs ∧
    (0 ≤ a * b → 0 ≤ truncdiv a b) ∧ (a * b ≤ 0 → truncdiv a b ≤ 0) ∧
    (rem a b).natAbs < b.natAbs ∧
    (0 ≤ a → 0 ≤ rem a b) ∧ (a ≤ 0 → rem a b ≤ 0) ∧
    cellMin ≤ rem a b ∧ rem a b ≤ cellMax ∧
    (cellOf (truncdiv a b)).toInt = (if a = cellMin ∧ b = -1 then cellMin else truncdiv a b)

/-! ## Transactions and assembler text -/

/-- RUN steps while STATE is RUNNING, takes no step outside it and answers SUCCESS or the latched
fault, and a longer RUN goes on from where a shorter one stood (40_dispatch.md R113). Cutting RUN
off after a number of steps is the model's form of it, log entry 15. -/
def Obligations.RunStopsInTerminalStates : Prop :=
  (∀ (n : Nat) (s : State), s.stateField ≠ 0#2 → runLoop n s = .next s ∧
    s.runAnswer = (if s.stateField = 1#2 then some .success else some (.fault s.fcode))) ∧
  (∀ (n : Nat) (s t : State), s.stateField = 0#2 → step s = .next t →
    runLoop (n + 1) s = runLoop n t ∧ s.runAnswer = none) ∧
  (∀ (m n : Nat) (s t : State), runLoop m s = .next t → runLoop (m + n) s = runLoop n t)

/-- A program with no jump, none of whose steps faults, runs exactly LEN steps and ends HALTED with
`ip = LEN` (40_dispatch.md R116). Counting the steps of RUN is the model's form, log entry 15. -/
def Obligations.JumpFreeProgramsRunExactlyLenSteps : Prop :=
  ∀ (words : List InstrWord) (memMax : Nat) (t : State),
    lengthInRange words = true → 1 ≤ memMax →
    (∀ w ∈ words, ∀ i, decode w = .ok i → ¬ IsJump i) →
    runLoop words.length (State.construct words memMax) = .next t → t.stateField ≠ 2#2 →
    t.stateField = 1#2 ∧ t.ip = words.length ∧
    ∀ k, k < words.length → ∃ u,
      runLoop k (State.construct words memMax) = .next u ∧ u.stateField = 0#2 ∧ u.ip = k

/-- INSPECT and STACK_RD change no state, whatever the state and the index; STACK_RD shows some value
for every cell of the array and the last written value of a defined cell, live or dead
(10_state.md R32, R33). -/
def Obligations.InspectionReadsWithoutChange : Prop :=
  ∀ s : State,
    transact .inspect s = .next (s, .inspected ⟨s.sp, s.hp, s.ip, s.status, s.faultIp⟩) ∧
    (∀ (k : Nat) (a : Int), ∃ v, transact (.stackRd k a) s = .next (s, .cell v) ∧
      (0 ≤ a → a < (s.memMax : Int) → v ≠ none)) ∧
    (∀ (k a : Nat) (v : Cell), a < s.memMax → s.slotAt a = some ⟨v, true⟩ →
      transact (.stackRd k a) s = .next (s, .cell (some v)))

/-- Every argument in `[MIN, MAX]` written in decimal, with `-` for a negative one, is read back
(30_encoding.md R78). -/
def Obligations.DecimalArgumentsReadBack : Prop :=
  ∀ n : Nat,
    ((n : Int) ≤ cellMax → readArg (Nat.toDigits 10 n) = some (n : Int)) ∧
    (cellMax < (n : Int) → readArg (Nat.toDigits 10 n) = none) ∧
    (cellMin ≤ -(n : Int) → readArg ('-' :: Nat.toDigits 10 n) = some (-(n : Int)))
end

