-- ==== Sys2Proof/Laws/State.lean ====
section
/-! SUPPORT. The small lemmas of State: every field after every register update, the views that read
one field, and the fields of a constructed machine. -/

namespace Sys2Proof.Machine

/-! ### `setStack` -/

@[simp] theorem State.setStack_stack (s : State) (m : Memory) : (s.setStack m).stack = m := rfl
@[simp] theorem State.setStack_heap (s : State) (m : Memory) : (s.setStack m).heap = s.heap := rfl
@[simp] theorem State.setStack_sp (s : State) (m : Memory) : (s.setStack m).sp = s.sp := rfl
@[simp] theorem State.setStack_hp (s : State) (m : Memory) : (s.setStack m).hp = s.hp := rfl
@[simp] theorem State.setStack_ip (s : State) (m : Memory) : (s.setStack m).ip = s.ip := rfl
@[simp] theorem State.setStack_status (s : State) (m : Memory) : (s.setStack m).status = s.status := rfl
@[simp] theorem State.setStack_faultIp (s : State) (m : Memory) : (s.setStack m).faultIp = s.faultIp := rfl
@[simp] theorem State.setStack_prog (s : State) (m : Memory) : (s.setStack m).prog = s.prog := rfl
@[simp] theorem State.setStack_memMax (s : State) (m : Memory) : (s.setStack m).memMax = s.memMax := rfl
@[simp] theorem State.setStack_draws (s : State) (m : Memory) : (s.setStack m).draws = s.draws := rfl
@[simp] theorem State.setStack_len (s : State) (m : Memory) : (s.setStack m).len = s.len := rfl
@[simp] theorem State.setStack_stateField (s : State) (m : Memory) : (s.setStack m).stateField = s.stateField := rfl
@[simp] theorem State.setStack_reservedField (s : State) (m : Memory) : (s.setStack m).reservedField = s.reservedField := rfl
@[simp] theorem State.setStack_fcode (s : State) (m : Memory) : (s.setStack m).fcode = s.fcode := rfl
@[simp] theorem State.setStack_fop (s : State) (m : Memory) : (s.setStack m).fop = s.fop := rfl
@[simp] theorem State.setStack_isRunning (s : State) (m : Memory) : (s.setStack m).isRunning = s.isRunning := rfl
@[simp] theorem State.setStack_slotAt (s : State) (m : Memory) (a : Nat) : (s.setStack m).slotAt a = m.find a := rfl

/-! ### `setSp` -/

@[simp] theorem State.setSp_stack (s : State) (v : Int) : (s.setSp v).stack = s.stack := rfl
@[simp] theorem State.setSp_heap (s : State) (v : Int) : (s.setSp v).heap = s.heap := rfl
@[simp] theorem State.setSp_sp (s : State) (v : Int) : (s.setSp v).sp = v := rfl
@[simp] theorem State.setSp_hp (s : State) (v : Int) : (s.setSp v).hp = s.hp := rfl
@[simp] theorem State.setSp_ip (s : State) (v : Int) : (s.setSp v).ip = s.ip := rfl
@[simp] theorem State.setSp_status (s : State) (v : Int) : (s.setSp v).status = s.status := rfl
@[simp] theorem State.setSp_faultIp (s : State) (v : Int) : (s.setSp v).faultIp = s.faultIp := rfl
@[simp] theorem State.setSp_prog (s : State) (v : Int) : (s.setSp v).prog = s.prog := rfl
@[simp] theorem State.setSp_memMax (s : State) (v : Int) : (s.setSp v).memMax = s.memMax := rfl
@[simp] theorem State.setSp_draws (s : State) (v : Int) : (s.setSp v).draws = s.draws := rfl
@[simp] theorem State.setSp_len (s : State) (v : Int) : (s.setSp v).len = s.len := rfl
@[simp] theorem State.setSp_stateField (s : State) (v : Int) : (s.setSp v).stateField = s.stateField := rfl
@[simp] theorem State.setSp_reservedField (s : State) (v : Int) : (s.setSp v).reservedField = s.reservedField := rfl
@[simp] theorem State.setSp_fcode (s : State) (v : Int) : (s.setSp v).fcode = s.fcode := rfl
@[simp] theorem State.setSp_fop (s : State) (v : Int) : (s.setSp v).fop = s.fop := rfl
@[simp] theorem State.setSp_isRunning (s : State) (v : Int) : (s.setSp v).isRunning = s.isRunning := rfl
@[simp] theorem State.setSp_slotAt (s : State) (v : Int) (a : Nat) : (s.setSp v).slotAt a = s.slotAt a := rfl
@[simp] theorem State.setSp_isDefined (s : State) (v : Int) (a : Nat) : (s.setSp v).isDefined a = s.isDefined a := rfl
@[simp] theorem State.setSp_readValue (s : State) (v : Int) (a : Int) : (s.setSp v).readValue a = s.readValue a := rfl

/-! ### `setIp` -/

@[simp] theorem State.setIp_stack (s : State) (v : Int) : (s.setIp v).stack = s.stack := rfl
@[simp] theorem State.setIp_heap (s : State) (v : Int) : (s.setIp v).heap = s.heap := rfl
@[simp] theorem State.setIp_sp (s : State) (v : Int) : (s.setIp v).sp = s.sp := rfl
@[simp] theorem State.setIp_hp (s : State) (v : Int) : (s.setIp v).hp = s.hp := rfl
@[simp] theorem State.setIp_ip (s : State) (v : Int) : (s.setIp v).ip = v := rfl
@[simp] theorem State.setIp_status (s : State) (v : Int) : (s.setIp v).status = s.status := rfl
@[simp] theorem State.setIp_faultIp (s : State) (v : Int) : (s.setIp v).faultIp = s.faultIp := rfl
@[simp] theorem State.setIp_prog (s : State) (v : Int) : (s.setIp v).prog = s.prog := rfl
@[simp] theorem State.setIp_memMax (s : State) (v : Int) : (s.setIp v).memMax = s.memMax := rfl
@[simp] theorem State.setIp_draws (s : State) (v : Int) : (s.setIp v).draws = s.draws := rfl
@[simp] theorem State.setIp_len (s : State) (v : Int) : (s.setIp v).len = s.len := rfl
@[simp] theorem State.setIp_stateField (s : State) (v : Int) : (s.setIp v).stateField = s.stateField := rfl
@[simp] theorem State.setIp_reservedField (s : State) (v : Int) : (s.setIp v).reservedField = s.reservedField := rfl
@[simp] theorem State.setIp_fcode (s : State) (v : Int) : (s.setIp v).fcode = s.fcode := rfl
@[simp] theorem State.setIp_fop (s : State) (v : Int) : (s.setIp v).fop = s.fop := rfl
@[simp] theorem State.setIp_isRunning (s : State) (v : Int) : (s.setIp v).isRunning = s.isRunning := rfl
@[simp] theorem State.setIp_slotAt (s : State) (v : Int) (a : Nat) : (s.setIp v).slotAt a = s.slotAt a := rfl
@[simp] theorem State.setIp_isDefined (s : State) (v : Int) (a : Nat) : (s.setIp v).isDefined a = s.isDefined a := rfl
@[simp] theorem State.setIp_readValue (s : State) (v : Int) (a : Int) : (s.setIp v).readValue a = s.readValue a := rfl

/-! ### `setStatus` -/

@[simp] theorem State.setStatus_stack (s : State) (v : BitVec 16) : (s.setStatus v).stack = s.stack := rfl
@[simp] theorem State.setStatus_heap (s : State) (v : BitVec 16) : (s.setStatus v).heap = s.heap := rfl
@[simp] theorem State.setStatus_sp (s : State) (v : BitVec 16) : (s.setStatus v).sp = s.sp := rfl
@[simp] theorem State.setStatus_hp (s : State) (v : BitVec 16) : (s.setStatus v).hp = s.hp := rfl
@[simp] theorem State.setStatus_ip (s : State) (v : BitVec 16) : (s.setStatus v).ip = s.ip := rfl
@[simp] theorem State.setStatus_status (s : State) (v : BitVec 16) : (s.setStatus v).status = v := rfl
@[simp] theorem State.setStatus_faultIp (s : State) (v : BitVec 16) : (s.setStatus v).faultIp = s.faultIp := rfl
@[simp] theorem State.setStatus_prog (s : State) (v : BitVec 16) : (s.setStatus v).prog = s.prog := rfl
@[simp] theorem State.setStatus_memMax (s : State) (v : BitVec 16) : (s.setStatus v).memMax = s.memMax := rfl
@[simp] theorem State.setStatus_draws (s : State) (v : BitVec 16) : (s.setStatus v).draws = s.draws := rfl
@[simp] theorem State.setStatus_len (s : State) (v : BitVec 16) : (s.setStatus v).len = s.len := rfl
@[simp] theorem State.setStatus_slotAt (s : State) (v : BitVec 16) (a : Nat) : (s.setStatus v).slotAt a = s.slotAt a := rfl
@[simp] theorem State.setStatus_isDefined (s : State) (v : BitVec 16) (a : Nat) : (s.setStatus v).isDefined a = s.isDefined a := rfl
@[simp] theorem State.setStatus_readValue (s : State) (v : BitVec 16) (a : Int) : (s.setStatus v).readValue a = s.readValue a := rfl

/-! ### `setFaultIp` -/

@[simp] theorem State.setFaultIp_stack (s : State) (v : Int) : (s.setFaultIp v).stack = s.stack := rfl
@[simp] theorem State.setFaultIp_heap (s : State) (v : Int) : (s.setFaultIp v).heap = s.heap := rfl
@[simp] theorem State.setFaultIp_sp (s : State) (v : Int) : (s.setFaultIp v).sp = s.sp := rfl
@[simp] theorem State.setFaultIp_hp (s : State) (v : Int) : (s.setFaultIp v).hp = s.hp := rfl
@[simp] theorem State.setFaultIp_ip (s : State) (v : Int) : (s.setFaultIp v).ip = s.ip := rfl
@[simp] theorem State.setFaultIp_status (s : State) (v : Int) : (s.setFaultIp v).status = s.status := rfl
@[simp] theorem State.setFaultIp_faultIp (s : State) (v : Int) : (s.setFaultIp v).faultIp = v := rfl
@[simp] theorem State.setFaultIp_prog (s : State) (v : Int) : (s.setFaultIp v).prog = s.prog := rfl
@[simp] theorem State.setFaultIp_memMax (s : State) (v : Int) : (s.setFaultIp v).memMax = s.memMax := rfl
@[simp] theorem State.setFaultIp_draws (s : State) (v : Int) : (s.setFaultIp v).draws = s.draws := rfl
@[simp] theorem State.setFaultIp_len (s : State) (v : Int) : (s.setFaultIp v).len = s.len := rfl
@[simp] theorem State.setFaultIp_stateField (s : State) (v : Int) : (s.setFaultIp v).stateField = s.stateField := rfl
@[simp] theorem State.setFaultIp_reservedField (s : State) (v : Int) : (s.setFaultIp v).reservedField = s.reservedField := rfl
@[simp] theorem State.setFaultIp_fcode (s : State) (v : Int) : (s.setFaultIp v).fcode = s.fcode := rfl
@[simp] theorem State.setFaultIp_fop (s : State) (v : Int) : (s.setFaultIp v).fop = s.fop := rfl
@[simp] theorem State.setFaultIp_isRunning (s : State) (v : Int) : (s.setFaultIp v).isRunning = s.isRunning := rfl
@[simp] theorem State.setFaultIp_slotAt (s : State) (v : Int) (a : Nat) : (s.setFaultIp v).slotAt a = s.slotAt a := rfl
@[simp] theorem State.setFaultIp_isDefined (s : State) (v : Int) (a : Nat) : (s.setFaultIp v).isDefined a = s.isDefined a := rfl
@[simp] theorem State.setFaultIp_readValue (s : State) (v : Int) (a : Int) : (s.setFaultIp v).readValue a = s.readValue a := rfl

/-! ### `takeDraw` -/

@[simp] theorem State.takeDraw_stack (s : State) : (s.takeDraw).stack = s.stack := rfl
@[simp] theorem State.takeDraw_heap (s : State) : (s.takeDraw).heap = s.heap := rfl
@[simp] theorem State.takeDraw_sp (s : State) : (s.takeDraw).sp = s.sp := rfl
@[simp] theorem State.takeDraw_hp (s : State) : (s.takeDraw).hp = s.hp := rfl
@[simp] theorem State.takeDraw_ip (s : State) : (s.takeDraw).ip = s.ip := rfl
@[simp] theorem State.takeDraw_status (s : State) : (s.takeDraw).status = s.status := rfl
@[simp] theorem State.takeDraw_faultIp (s : State) : (s.takeDraw).faultIp = s.faultIp := rfl
@[simp] theorem State.takeDraw_prog (s : State) : (s.takeDraw).prog = s.prog := rfl
@[simp] theorem State.takeDraw_memMax (s : State) : (s.takeDraw).memMax = s.memMax := rfl
@[simp] theorem State.takeDraw_draws (s : State) : (s.takeDraw).draws = s.draws + 1 := rfl
@[simp] theorem State.takeDraw_len (s : State) : (s.takeDraw).len = s.len := rfl
@[simp] theorem State.takeDraw_stateField (s : State) : (s.takeDraw).stateField = s.stateField := rfl
@[simp] theorem State.takeDraw_reservedField (s : State) : (s.takeDraw).reservedField = s.reservedField := rfl
@[simp] theorem State.takeDraw_fcode (s : State) : (s.takeDraw).fcode = s.fcode := rfl
@[simp] theorem State.takeDraw_fop (s : State) : (s.takeDraw).fop = s.fop := rfl
@[simp] theorem State.takeDraw_isRunning (s : State) : (s.takeDraw).isRunning = s.isRunning := rfl
@[simp] theorem State.takeDraw_slotAt (s : State) (a : Nat) : (s.takeDraw).slotAt a = s.slotAt a := rfl
@[simp] theorem State.takeDraw_isDefined (s : State) (a : Nat) : (s.takeDraw).isDefined a = s.isDefined a := rfl

/-! ### `construct` (10_state.md R35) -/

@[simp] theorem State.construct_stack (words : List InstrWord) (n : Nat) : (State.construct words n).stack = [] := rfl
@[simp] theorem State.construct_heap (words : List InstrWord) (n : Nat) : (State.construct words n).heap = [] := rfl
@[simp] theorem State.construct_sp (words : List InstrWord) (n : Nat) : (State.construct words n).sp = -1 := rfl
@[simp] theorem State.construct_hp (words : List InstrWord) (n : Nat) : (State.construct words n).hp = -1 := rfl
@[simp] theorem State.construct_ip (words : List InstrWord) (n : Nat) : (State.construct words n).ip = 0 := rfl
@[simp] theorem State.construct_faultIp (words : List InstrWord) (n : Nat) : (State.construct words n).faultIp = 0 := rfl
@[simp] theorem State.construct_prog (words : List InstrWord) (n : Nat) : (State.construct words n).prog = words := rfl
@[simp] theorem State.construct_memMax (words : List InstrWord) (n : Nat) : (State.construct words n).memMax = n := rfl
@[simp] theorem State.construct_draws (words : List InstrWord) (n : Nat) : (State.construct words n).draws = 0 := rfl
@[simp] theorem State.construct_len (words : List InstrWord) (n : Nat) : (State.construct words n).len = words.length := rfl

/-- Reset is CONSTRUCT of the empty program (70_reset_and_hazards.md R400, R403). -/
theorem State.construct_nil : State.construct [] = State.reset := by decide

end Sys2Proof.Machine
end

