-- ==== Sys2Proof/Laws/Memory.lean ====
section
/-! SUPPORT. The laws of the cell arrays: what a cell holds after each operation, and that every
operation keeps the canonical form. -/

namespace Sys2Proof.Machine

/-! ### What a cell holds -/

@[simp] theorem Memory.find_nil (a : Nat) : Memory.find [] a = none := rfl

theorem Memory.find_put_same (m : Memory) (a : Nat) (x : Slot) : (m.put a x).find a = some x := by
  induction m with
  | nil => simp [Memory.put, Memory.find]
  | cons c m ih =>
    obtain ⟨b, y⟩ := c
    simp only [Memory.put]
    split
    · simp [Memory.find]
    · split
      · simp [Memory.find]
      · simp [Memory.find, *]

theorem Memory.find_put_other (m : Memory) (a b : Nat) (x : Slot) (h : b ≠ a) :
    (m.put a x).find b = m.find b := by
  induction m with
  | nil => simp [Memory.put, Memory.find, h]
  | cons c m ih =>
    obtain ⟨d, y⟩ := c
    simp only [Memory.put]
    split
    · simp [Memory.find, h]
    · split
      · subst_vars; simp [Memory.find, h]
      · simp [Memory.find, ih]

/-- What cell `b` holds after a put at cell `a`. -/
theorem Memory.find_put (m : Memory) (a b : Nat) (x : Slot) :
    (m.put a x).find b = if b = a then some x else m.find b := by
  split
  · subst_vars; exact m.find_put_same _ x
  · exact m.find_put_other a b x ‹_›

/-- What cell `b` holds after its `defined` bit may have been cleared. -/
theorem Memory.find_undefine (m : Memory) (lo hi : Int) (b : Nat) :
    (m.undefine lo hi).find b =
      if lo ≤ (b : Int) ∧ (b : Int) ≤ hi then
        (m.find b).map fun x => { x with defined := false }
      else m.find b := by
  induction m with
  | nil => simp [Memory.undefine, Memory.find]
  | cons c m ih =>
    obtain ⟨d, y⟩ := c
    simp only [Memory.undefine, List.map_cons] at ih ⊢
    by_cases hbd : b = d
    · subst hbd
      by_cases hr : lo ≤ (b : Int) ∧ (b : Int) ≤ hi <;> simp [Memory.find, hr]
    · by_cases hr : lo ≤ (d : Int) ∧ (d : Int) ≤ hi <;> simp [Memory.find, hr, hbd, ih]

/-! ### The canonical form -/

theorem cellsRise_mono {α : Type} {n : Nat} {m : List (Nat × α)} {lo lo' : Nat} (hlo : lo' ≤ lo)
    (h : cellsRise n lo m = true) : cellsRise n lo' m = true := by
  cases m with
  | nil => rfl
  | cons c m =>
    obtain ⟨a, x⟩ := c
    simp only [cellsRise, Bool.and_eq_true, decide_eq_true_eq] at h ⊢
    exact ⟨⟨by omega, h.1.2⟩, h.2⟩

theorem Memory.cellsRise_put {m : Memory} {n lo a : Nat} (x : Slot) (hlo : lo ≤ a)
    (ha : a < n) (h : cellsRise n lo m = true) :
    cellsRise n lo (m.put a x) = true := by
  induction m generalizing lo with
  | nil => simp [Memory.put, cellsRise, hlo, ha]
  | cons c m ih =>
    obtain ⟨b, y⟩ := c
    simp only [cellsRise, Bool.and_eq_true, decide_eq_true_eq] at h
    simp only [Memory.put]
    split
    · simp only [cellsRise, Bool.and_eq_true, decide_eq_true_eq]
      exact ⟨⟨hlo, ha⟩, ⟨by omega, h.1.2⟩, h.2⟩
    · split
      · subst_vars
        simp only [cellsRise, Bool.and_eq_true, decide_eq_true_eq]
        exact ⟨⟨hlo, ha⟩, h.2⟩
      · simp only [cellsRise, Bool.and_eq_true, decide_eq_true_eq]
        exact ⟨h.1, ih (by omega) h.2⟩

/-- A put inside the array keeps the canonical form. -/
theorem Memory.wf_put {m : Memory} {n a : Nat} (x : Slot) (ha : a < n)
    (h : m.wf n = true) : (m.put a x).wf n = true :=
  Memory.cellsRise_put x (Nat.zero_le a) ha h

theorem Memory.cellsRise_undefine {m : Memory} {c : Nat} (n : Nat) (lo hi : Int)
    (h : cellsRise c n m = true) : cellsRise c n (m.undefine lo hi) = true := by
  induction m generalizing n with
  | nil => rfl
  | cons c m ih =>
    obtain ⟨b, y⟩ := c
    simp only [cellsRise, Bool.and_eq_true] at h
    have := ih (b + 1) h.2
    simp only [Memory.undefine, List.map_cons] at this ⊢
    by_cases hr : lo ≤ (b : Int) ∧ (b : Int) ≤ hi <;>
      simp only [hr, and_self, if_true, if_false, cellsRise, Bool.and_eq_true] <;>
      exact ⟨h.1, this⟩

/-- Clearing `defined` bits keeps the canonical form. -/
theorem Memory.wf_undefine {m : Memory} {n : Nat} (lo hi : Int) (h : m.wf n = true) :
    (m.undefine lo hi).wf n = true :=
  Memory.cellsRise_undefine 0 lo hi h

/-- The stack array after reset has the canonical form. -/
theorem State.reset_stack_wf : State.reset.stack.wf State.reset.memMax = true := rfl

/-- So has the heap array. -/
theorem State.reset_heap_wf : State.reset.heap.wf State.reset.memMax = true := rfl

/-! ### MemWrite and MemRead -/

theorem inArray_iff (n : Nat) (a : Int) : inArray n a = true ↔ 0 ≤ a ∧ a < (n : Int) := by
  simp [inArray]

/-- MemWrite changes nothing but the stack array. -/
theorem memWrite_eq (a : Int) (v : Cell) (s : State) :
    memWrite a v s = s.setStack (memWrite a v s).stack := by
  unfold memWrite; split <;> rfl

theorem memWrite_stack (a : Int) (v : Cell) (s : State) :
    (memWrite a v s).stack = if inArray s.memMax a then s.stack.put a.toNat ⟨v, true⟩ else s.stack := by
  unfold memWrite; split <;> rfl

/-- What cell `b` holds after MemWrite of cell `a` (20_memory.md R54). -/
theorem memWrite_slotAt (a : Int) (v : Cell) (s : State) (b : Nat) :
    (memWrite a v s).slotAt b =
      if inArray s.memMax a = true ∧ (b : Int) = a then some ⟨v, true⟩ else s.slotAt b := by
  simp only [State.slotAt, memWrite_stack]
  by_cases h : inArray s.memMax a = true
  · have h0 := (inArray_iff _ a).1 h
    simp only [h, if_true, true_and, Memory.find_put]
    by_cases hb : b = a.toNat
    · rw [if_pos hb, if_pos (by omega)]
    · rw [if_neg hb, if_neg (by omega)]
  · simp [h]

/-- MemWrite keeps the canonical form. -/
theorem memWrite_wf (a : Int) (v : Cell) (s : State) (h : s.stack.wf s.memMax = true) :
    (memWrite a v s).stack.wf s.memMax = true := by
  rw [memWrite_stack]
  split
  · rename_i ha
    exact Memory.wf_put _ (by have := (inArray_iff _ a).1 ha; omega) h
  · exact h

@[simp] theorem memWrite_len (a : Int) (v : Cell) (s : State) : (memWrite a v s).len = s.len := by
  unfold memWrite; split <;> rfl
@[simp] theorem memWrite_heap (a : Int) (v : Cell) (s : State) : (memWrite a v s).heap = s.heap := by
  unfold memWrite; split <;> rfl
@[simp] theorem memWrite_sp (a : Int) (v : Cell) (s : State) : (memWrite a v s).sp = s.sp := by
  unfold memWrite; split <;> rfl
@[simp] theorem memWrite_hp (a : Int) (v : Cell) (s : State) : (memWrite a v s).hp = s.hp := by
  unfold memWrite; split <;> rfl
@[simp] theorem memWrite_ip (a : Int) (v : Cell) (s : State) : (memWrite a v s).ip = s.ip := by
  unfold memWrite; split <;> rfl
@[simp] theorem memWrite_status (a : Int) (v : Cell) (s : State) :
    (memWrite a v s).status = s.status := by
  unfold memWrite; split <;> rfl
@[simp] theorem memWrite_faultIp (a : Int) (v : Cell) (s : State) :
    (memWrite a v s).faultIp = s.faultIp := by
  unfold memWrite; split <;> rfl
@[simp] theorem memWrite_prog (a : Int) (v : Cell) (s : State) : (memWrite a v s).prog = s.prog := by
  unfold memWrite; split <;> rfl
@[simp] theorem memWrite_memMax (a : Int) (v : Cell) (s : State) :
    (memWrite a v s).memMax = s.memMax := by
  unfold memWrite; split <;> rfl
@[simp] theorem memWrite_draws (a : Int) (v : Cell) (s : State) :
    (memWrite a v s).draws = s.draws := by
  unfold memWrite; split <;> rfl

/-- A read changes nothing but the number of DRAWs taken (20_memory.md R56). -/
theorem State.afterRead_eq (s : State) (a : Int) :
    s.afterRead a = { s with draws := (s.afterRead a).draws } := by
  unfold State.afterRead; split <;> rfl

@[simp] theorem State.afterRead_stack (s : State) (a : Int) : (s.afterRead a).stack = s.stack := by
  unfold State.afterRead; split <;> rfl
@[simp] theorem State.afterRead_heap (s : State) (a : Int) : (s.afterRead a).heap = s.heap := by
  unfold State.afterRead; split <;> rfl
@[simp] theorem State.afterRead_sp (s : State) (a : Int) : (s.afterRead a).sp = s.sp := by
  unfold State.afterRead; split <;> rfl
@[simp] theorem State.afterRead_hp (s : State) (a : Int) : (s.afterRead a).hp = s.hp := by
  unfold State.afterRead; split <;> rfl
@[simp] theorem State.afterRead_ip (s : State) (a : Int) : (s.afterRead a).ip = s.ip := by
  unfold State.afterRead; split <;> rfl
@[simp] theorem State.afterRead_status (s : State) (a : Int) :
    (s.afterRead a).status = s.status := by
  unfold State.afterRead; split <;> rfl
@[simp] theorem State.afterRead_faultIp (s : State) (a : Int) :
    (s.afterRead a).faultIp = s.faultIp := by
  unfold State.afterRead; split <;> rfl
@[simp] theorem State.afterRead_prog (s : State) (a : Int) : (s.afterRead a).prog = s.prog := by
  unfold State.afterRead; split <;> rfl

@[simp] theorem State.afterRead_memMax (s : State) (a : Int) :
    (s.afterRead a).memMax = s.memMax := by
  unfold State.afterRead; split <;> rfl
@[simp] theorem State.afterRead_len (s : State) (a : Int) : (s.afterRead a).len = s.len := by
  unfold State.afterRead; split <;> rfl
@[simp] theorem State.afterRead_slotAt (s : State) (a : Int) (b : Nat) :
    (s.afterRead a).slotAt b = s.slotAt b := by
  unfold State.afterRead; split <;> rfl
@[simp] theorem State.afterRead_isDefined (s : State) (a : Int) (b : Nat) :
    (s.afterRead a).isDefined b = s.isDefined b := by
  unfold State.afterRead; split <;> rfl
@[simp] theorem State.afterRead_stateField (s : State) (a : Int) :
    (s.afterRead a).stateField = s.stateField := by
  unfold State.afterRead; split <;> rfl

/-- A read does not depend on `ip`. -/
@[simp] theorem State.setIp_afterRead (s : State) (v a : Int) :
    (s.setIp v).afterRead a = (s.afterRead a).setIp v := by
  by_cases h : s.isDefined a.toNat = true <;> simp [State.afterRead, h]
  rfl

/-- A read takes at most one DRAW. -/
theorem State.afterRead_draws_le (s : State) (a : Int) : s.draws ≤ (s.afterRead a).draws := by
  unfold State.afterRead; split <;> simp [State.takeDraw]

/-! ### The value a read returns (20_memory.md R53, R57) -/

/-- A defined cell reads as the value written to it. -/
theorem State.readValue_defined {s : State} {a : Int} {v : Cell}
    (h : s.slotAt a.toNat = some ⟨v, true⟩) : s.readValue a = v := by
  unfold State.readValue; rw [h]; rfl

/-- The value read depends on the cell and on the number of DRAWs taken only. -/
theorem State.readValue_congr {s t : State} {a : Int} (h : t.slotAt a.toNat = s.slotAt a.toNat)
    (hd : t.draws = s.draws) : t.readValue a = s.readValue a := by
  unfold State.readValue; rw [h, hd]

/-- A cell that is not defined reads as the next DRAW. -/
theorem State.readValue_undefined {s : State} {a : Int} (h : s.isDefined a.toNat = false) :
    s.readValue a = Config.draw s.draws := by
  unfold State.readValue
  cases e : s.slotAt a.toNat with
  | none => rfl
  | some x =>
    simp only [State.isDefined, e] at h
    exact if_neg (by rw [h]; decide)

/-- A read of a defined cell takes no DRAW. -/
theorem State.afterRead_defined {s : State} {a : Int} (h : s.isDefined a.toNat = true) :
    s.afterRead a = s := if_pos h

/-- A read of a cell that is not defined takes one. -/
theorem State.afterRead_undefined {s : State} {a : Int} (h : s.isDefined a.toNat = false) :
    s.afterRead a = s.takeDraw := if_neg (by simp [h])

/-- What cell `b` reads as after MemWrite of cell `a`. -/
theorem memWrite_readValue (a : Int) {b : Int} (v : Cell) (s : State) (hb : 0 ≤ b) :
    (memWrite a v s).readValue b = if inArray s.memMax a = true ∧ b = a then v else s.readValue b := by
  have hbb : (b.toNat : Int) = b := Int.toNat_of_nonneg hb
  split
  · rename_i h
    exact State.readValue_defined (by rw [memWrite_slotAt, hbb, if_pos h])
  · rename_i h
    exact State.readValue_congr (by rw [memWrite_slotAt, hbb, if_neg h]) (memWrite_draws a v s)

/-- A MemRead that answers was of a cell of the array (20_memory.md R53). -/
theorem memRead_eq_some {a : Int} {s t : State} {v : Cell} :
    memRead a s = some (v, t) ↔ inArray s.memMax a = true ∧ v = s.readValue a ∧ t = s.afterRead a := by
  unfold memRead
  split
  · rename_i h
    constructor
    · intro e; cases e; exact ⟨h, rfl, rfl⟩
    · rintro ⟨-, rfl, rfl⟩; rfl
  · rename_i h
    constructor
    · intro e; cases e
    · rintro ⟨h', -, -⟩; exact absurd h' h

end Sys2Proof.Machine
end

