-- ==== Sys2Proof/Laws/Phases.lean ====
section
/-! SUPPORT. The laws of STATUS, of fault entry, of the post-check and of the phases around an
instruction: what each can do, said once. -/

namespace Sys2Proof.Machine

/-! ### Fields of a concatenation -/

/-- The low field of a concatenation. -/
theorem extract_append_low {n m : Nat} (x : BitVec n) (y : BitVec m) :
    (x ++ y).extractLsb' 0 m = y := by
  ext i hi
  simp [BitVec.getLsbD_append, hi]

/-- A field above the low part of a concatenation. -/
theorem extract_append_high {n m : Nat} (x : BitVec n) (y : BitVec m) (k w : Nat) :
    (x ++ y).extractLsb' (m + k) w = x.extractLsb' k w := by
  ext i hi
  have h1 : ¬ m + k + i < m := by omega
  have h2 : m + k + i - m = k + i := by omega
  simp [BitVec.getLsbD_append, h1, h2]

/-! ### STATUS (10_state.md R28) -/

@[simp] theorem packStatus_state (fop : BitVec 8) (fcode : BitVec 4) (st : BitVec 2) :
    (packStatus fop fcode st).extractLsb' 0 2 = st :=
  extract_append_low (fop ++ fcode ++ 0#2) st

@[simp] theorem packStatus_reserved (fop : BitVec 8) (fcode : BitVec 4) (st : BitVec 2) :
    (packStatus fop fcode st).extractLsb' 2 2 = 0#2 :=
  (extract_append_high (fop ++ fcode ++ 0#2) st 0 2).trans
    (extract_append_low (fop ++ fcode) 0#2)

@[simp] theorem packStatus_fcode (fop : BitVec 8) (fcode : BitVec 4) (st : BitVec 2) :
    (packStatus fop fcode st).extractLsb' 4 4 = fcode :=
  (extract_append_high (fop ++ fcode ++ 0#2) st 2 4).trans
    ((extract_append_high (fop ++ fcode) 0#2 0 4).trans (extract_append_low fop fcode))

@[simp] theorem packStatus_fop (fop : BitVec 8) (fcode : BitVec 4) (st : BitVec 2) :
    (packStatus fop fcode st).extractLsb' 8 8 = fop :=
  (extract_append_high (fop ++ fcode ++ 0#2) st 6 8).trans
    ((extract_append_high (fop ++ fcode) 0#2 4 8).trans
      ((extract_append_high fop fcode 0 8).trans (by ext; simp)))

theorem State.isRunning_iff (s : State) :
    s.isRunning = true ↔ s.stateField = RunState.running.code := by
  simp [State.isRunning]

/-! ### The status update (40_dispatch.md R109) -/

@[simp] theorem State.setRunState_stack (s : State) (r : RunState) :
    (s.setRunState r).stack = s.stack := rfl
@[simp] theorem State.setRunState_heap (s : State) (r : RunState) :
    (s.setRunState r).heap = s.heap := rfl
@[simp] theorem State.setRunState_sp (s : State) (r : RunState) : (s.setRunState r).sp = s.sp := rfl
@[simp] theorem State.setRunState_hp (s : State) (r : RunState) : (s.setRunState r).hp = s.hp := rfl
@[simp] theorem State.setRunState_ip (s : State) (r : RunState) : (s.setRunState r).ip = s.ip := rfl
@[simp] theorem State.setRunState_faultIp (s : State) (r : RunState) :
    (s.setRunState r).faultIp = s.faultIp := rfl
@[simp] theorem State.setRunState_prog (s : State) (r : RunState) :
    (s.setRunState r).prog = s.prog := rfl
@[simp] theorem State.setRunState_memMax (s : State) (r : RunState) :
    (s.setRunState r).memMax = s.memMax := rfl
@[simp] theorem State.setRunState_len (s : State) (r : RunState) :
    (s.setRunState r).len = s.len := rfl
@[simp] theorem State.setRunState_draws (s : State) (r : RunState) :
    (s.setRunState r).draws = s.draws := rfl
@[simp] theorem State.setRunState_status (s : State) (r : RunState) :
    (s.setRunState r).status = packStatus s.fop s.fcode r.code := rfl
@[simp] theorem State.setRunState_stateField (s : State) (r : RunState) :
    (s.setRunState r).stateField = r.code := packStatus_state _ _ _
@[simp] theorem State.setRunState_reservedField (s : State) (r : RunState) :
    (s.setRunState r).reservedField = 0#2 := packStatus_reserved _ _ _
@[simp] theorem State.setRunState_fcode (s : State) (r : RunState) :
    (s.setRunState r).fcode = s.fcode := packStatus_fcode _ _ _
@[simp] theorem State.setRunState_fop (s : State) (r : RunState) :
    (s.setRunState r).fop = s.fop := packStatus_fop _ _ _
@[simp] theorem State.setRunState_slotAt (s : State) (r : RunState) (a : Nat) :
    (s.setRunState r).slotAt a = s.slotAt a := rfl
@[simp] theorem State.setRunState_isDefined (s : State) (r : RunState) (a : Nat) :
    (s.setRunState r).isDefined a = s.isDefined a := rfl

/-- The status update writes STATUS and nothing else. -/
theorem statusUpdate_eq (s : State) :
    statusUpdate s = s.setStatus (statusUpdate s).status := rfl

/-! ### Fault entry (60_exceptions.md R310) -/

section
variable (c : Cause) (opc : BitVec 8) (i : Int) (s : State)

@[simp] theorem faultEntry_stack : (faultEntry c opc i s).stack = s.stack := rfl
@[simp] theorem faultEntry_heap : (faultEntry c opc i s).heap = s.heap := rfl
@[simp] theorem faultEntry_sp : (faultEntry c opc i s).sp = s.sp := rfl
@[simp] theorem faultEntry_hp : (faultEntry c opc i s).hp = s.hp := rfl
@[simp] theorem faultEntry_ip : (faultEntry c opc i s).ip = s.ip := rfl
@[simp] theorem faultEntry_faultIp : (faultEntry c opc i s).faultIp = i := rfl
@[simp] theorem faultEntry_prog : (faultEntry c opc i s).prog = s.prog := rfl
@[simp] theorem faultEntry_memMax : (faultEntry c opc i s).memMax = s.memMax := rfl
@[simp] theorem faultEntry_len : (faultEntry c opc i s).len = s.len := rfl
@[simp] theorem faultEntry_draws : (faultEntry c opc i s).draws = s.draws := rfl
@[simp] theorem faultEntry_slotAt (a : Nat) : (faultEntry c opc i s).slotAt a = s.slotAt a := rfl
@[simp] theorem faultEntry_isDefined (a : Nat) :
    (faultEntry c opc i s).isDefined a = s.isDefined a := rfl
@[simp] theorem faultEntry_status :
    (faultEntry c opc i s).status = packStatus opc c.code RunState.faulted.code := rfl
@[simp] theorem faultEntry_stateField :
    (faultEntry c opc i s).stateField = RunState.faulted.code := packStatus_state _ _ _
@[simp] theorem faultEntry_reservedField :
    (faultEntry c opc i s).reservedField = 0#2 := packStatus_reserved _ _ _
@[simp] theorem faultEntry_fcode : (faultEntry c opc i s).fcode = c.code := packStatus_fcode _ _ _
@[simp] theorem faultEntry_fop : (faultEntry c opc i s).fop = opc := packStatus_fop _ _ _

end

/-! ### The post-check and the phases (40_dispatch.md R100, R107) -/

theorem overCapacity_iff (s : State) :
    overCapacity s = true ↔ (s.memMax : Int) ≤ s.sp ∨ (s.memMax : Int) ≤ s.hp := by
  simp [overCapacity]

theorem ipOutOfRange_iff (s : State) : ipOutOfRange s = true ↔ s.ip < 0 ∨ s.len < s.ip := by
  simp [ipOutOfRange]

/-- Everything the phases after a complete effect can do. -/
theorem finish_cases (opc : BitVec 8) (i : Int) (s : State) :
    (((s.memMax : Int) ≤ s.sp ∨ (s.memMax : Int) ≤ s.hp) ∧
      finish opc i s = faultEntry .memoryOverflow opc i s) ∨
    (s.sp < (s.memMax : Int) ∧ s.hp < (s.memMax : Int) ∧ (s.ip < 0 ∨ s.len < s.ip) ∧
      finish opc i s = faultEntry .illegalInstructionAccess opc i s) ∨
    (s.sp < (s.memMax : Int) ∧ s.hp < (s.memMax : Int) ∧ 0 ≤ s.ip ∧ s.ip ≤ s.len ∧
      finish opc i s = statusUpdate s) := by
  unfold finish
  by_cases h1 : overCapacity s = true
  · exact Or.inl ⟨(overCapacity_iff s).1 h1, by simp [h1]⟩
  · have h1' := mt (overCapacity_iff s).2 h1
    by_cases h2 : ipOutOfRange s = true
    · exact Or.inr (Or.inl ⟨by omega, by omega, (ipOutOfRange_iff s).1 h2, by simp [h1, h2]⟩)
    · have h2' := mt (ipOutOfRange_iff s).2 h2
      exact Or.inr (Or.inr ⟨by omega, by omega, by omega, by omega, by simp [h1, h2]⟩)

/-- The phases after a complete effect in a state that passes the post-check. -/
theorem finish_of_inRange (opc : BitVec 8) (i : Int) {s : State}
    (h1 : s.sp < (s.memMax : Int)) (h2 : s.hp < (s.memMax : Int)) (h3 : 0 ≤ s.ip)
    (h4 : s.ip ≤ s.len) : finish opc i s = statusUpdate s := by
  rcases finish_cases opc i s with ⟨h, -⟩ | ⟨-, -, h, -⟩ | ⟨-, -, -, -, h⟩
  · omega
  · omega
  · exact h

/-- The phases after a complete effect change nothing but STATUS and FAULT_IP. -/
theorem finish_eq (opc : BitVec 8) (i : Int) (s : State) :
    finish opc i s =
      { s with status := (finish opc i s).status, faultIp := (finish opc i s).faultIp } := by
  rcases finish_cases opc i s with ⟨-, h⟩ | ⟨-, -, -, h⟩ | ⟨-, -, -, -, h⟩ <;> rw [h] <;> rfl

/-- Everything the phases around an instruction can answer with a next state. -/
theorem runInstr_next {i : Instr} {eff : State → Effect} {s t : State} :
    runInstr i eff s = .next t ↔
      (∃ u, eff (s.setIp (s.ip + 1)) = .done u ∧ t = finish (opcOf i) s.ip u) ∨
      (∃ c u, eff (s.setIp (s.ip + 1)) = .raise c u ∧ t = faultEntry c (opcOf i) s.ip u) := by
  unfold runInstr
  cases eff (s.setIp (s.ip + 1)) <;> simp [eq_comm]

/-- When the phases around an instruction stop the model. -/
theorem runInstr_fault {i : Instr} {eff : State → Effect} {s : State} {f : Fault} :
    runInstr i eff s = .fault f ↔ eff (s.setIp (s.ip + 1)) = .stop f := by
  unfold runInstr
  cases eff (s.setIp (s.ip + 1)) <;> simp

/-- The phases around an instruction never refuse. -/
theorem runInstr_refused {i : Instr} {eff : State → Effect} {s : State} {r : Refusal} :
    runInstr i eff s ≠ .refused r := by
  unfold runInstr
  cases eff (s.setIp (s.ip + 1)) <;> simp

theorem runInstr_of_done {i : Instr} {eff : State → Effect} {s u : State}
    (h : eff (s.setIp (s.ip + 1)) = .done u) :
    runInstr i eff s = .next (finish (opcOf i) s.ip u) := by
  simp [runInstr, h]

theorem runInstr_of_raise {i : Instr} {eff : State → Effect} {s u : State} {c : Cause}
    (h : eff (s.setIp (s.ip + 1)) = .raise c u) :
    runInstr i eff s = .next (faultEntry c (opcOf i) s.ip u) := by
  simp [runInstr, h]

end Sys2Proof.Machine
end

