-- ==== Sys2Proof/Laws/Operands.lean ====
section
/-! SUPPORT. The laws of the operand forms: when each pre-check passes, and everything the BINOP
and UNOP templates and a push can do. -/

namespace Sys2Proof.Machine

/-! ### Pre-checks -/

theorem needDepth_pass {need : Int} {s : State} (rest : Effect) (h : need ≤ s.sp) :
    needDepth need s rest = rest := if_neg (by omega)

theorem needDepth_fail {need : Int} {s : State} (rest : Effect) (h : s.sp < need) :
    needDepth need s rest = .raise .stackUnderflow s := if_pos h

theorem needAddress_pass {a limit : Int} (s : State) (rest : Effect) (h0 : 0 ≤ a)
    (h1 : a ≤ limit) : needAddress a limit s rest = rest := if_neg (by omega)

theorem needAddress_fail {a limit : Int} (s : State) (rest : Effect) (h : a > limit ∨ a < 0) :
    needAddress a limit s rest = .raise .illegalStackMemoryAccess s := if_pos h

theorem needTarget_pass {t : Int} {s : State} (rest : Effect) (h : t < s.len) :
    needTarget t s rest = rest := if_neg (by omega)

theorem needTarget_fail {t : Int} {s : State} (rest : Effect) (h : s.len ≤ t) :
    needTarget t s rest = .raise .illegalInstructionAccess s := if_pos h

theorem needDivisor_pass {a b : Int} (s : State) (rest : Effect) (h : b ≠ 0) :
    needDivisor a b s rest = rest := if_neg h

theorem needDivisor_fail (a : Int) (s : State) (rest : Effect) :
    needDivisor a 0 s rest = .raise .divisionByZero s := if_pos rfl

@[simp] theorem noCheck_eq (a b : Int) (s : State) (rest : Effect) :
    noCheck a b s rest = rest := rfl

/-! ### Reads and pushes -/

theorem readCell_inside {a : Int} (s : State) (rest : Cell → State → Effect)
    (h : inArray s.memMax a = true) : readCell a s rest = rest (s.readValue a) (s.afterRead a) := by
  simp [readCell, memRead, h]

theorem readCell_outside {a : Int} (s : State) (rest : Cell → State → Effect)
    (h : inArray s.memMax a = false) : readCell a s rest = .stop .noSuchCell := by
  simp [readCell, memRead, h]

/-- A push changes the stack array and `sp`, nothing else (00_scope.md R12). -/
theorem push_eq (v : Cell) (s : State) :
    push v s = (s.setSp (s.sp + 1)).setStack (push v s).stack := memWrite_eq _ _ _

@[simp] theorem push_sp (v : Cell) (s : State) : (push v s).sp = s.sp + 1 := by simp [push]
@[simp] theorem push_ip (v : Cell) (s : State) : (push v s).ip = s.ip := by simp [push]
@[simp] theorem push_hp (v : Cell) (s : State) : (push v s).hp = s.hp := by simp [push]
@[simp] theorem push_len (v : Cell) (s : State) : (push v s).len = s.len := by simp [push]
@[simp] theorem push_memMax (v : Cell) (s : State) : (push v s).memMax = s.memMax := by
  simp [push]
@[simp] theorem push_draws (v : Cell) (s : State) : (push v s).draws = s.draws := by simp [push]
@[simp] theorem push_prog (v : Cell) (s : State) : (push v s).prog = s.prog := by simp [push]

/-- What cell `b` holds after a push: the pushed value in the new top cell, if the array has one. -/
theorem push_slotAt (v : Cell) (s : State) (b : Nat) :
    (push v s).slotAt b =
      if inArray s.memMax (s.sp + 1) = true ∧ (b : Int) = s.sp + 1 then some ⟨v, true⟩
      else s.slotAt b := by
  rw [push, memWrite_slotAt]; rfl

/-! ### The copy of the top cell (43_stack_memory.md R206) -/

/-- A copy of the top cell changes the stack array and `sp`, nothing else. -/
theorem pushCopy_eq (v : Cell) (s : State) :
    pushCopy v s = (s.setSp (s.sp + 1)).setStack (pushCopy v s).stack := by
  unfold pushCopy
  split
  · rw [push_eq, memWrite_eq s.sp v s]; rfl
  · exact push_eq v s

@[simp] theorem pushCopy_sp (v : Cell) (s : State) : (pushCopy v s).sp = s.sp + 1 := by
  rw [pushCopy_eq]; rfl
@[simp] theorem pushCopy_ip (v : Cell) (s : State) : (pushCopy v s).ip = s.ip := by
  rw [pushCopy_eq]; rfl
@[simp] theorem pushCopy_hp (v : Cell) (s : State) : (pushCopy v s).hp = s.hp := by
  rw [pushCopy_eq]; rfl
@[simp] theorem pushCopy_prog (v : Cell) (s : State) : (pushCopy v s).prog = s.prog := by
  rw [pushCopy_eq]; rfl
@[simp] theorem pushCopy_len (v : Cell) (s : State) : (pushCopy v s).len = s.len := by
  rw [pushCopy_eq]; rfl
@[simp] theorem pushCopy_memMax (v : Cell) (s : State) : (pushCopy v s).memMax = s.memMax := by
  rw [pushCopy_eq]; rfl
@[simp] theorem pushCopy_draws (v : Cell) (s : State) : (pushCopy v s).draws = s.draws := by
  rw [pushCopy_eq]; rfl

/-- What cell `b` holds after a copy of the top cell: the value copied in both cells if the array
has room, and nothing new otherwise. -/
theorem pushCopy_slotAt (v : Cell) (s : State) (b : Nat) :
    (pushCopy v s).slotAt b =
      if s.sp + 1 < (s.memMax : Int) ∧ ((b : Int) = s.sp ∨ (b : Int) = s.sp + 1) then
        some ⟨v, true⟩
      else s.slotAt b := by
  unfold pushCopy
  split
  · rename_i h
    have e1 : inArray s.memMax (s.sp + 1) = true ↔ 0 ≤ s.sp + 1 ∧ s.sp + 1 < s.memMax :=
      inArray_iff _ _
    have e2 : inArray s.memMax s.sp = true ↔ 0 ≤ s.sp ∧ s.sp < s.memMax := inArray_iff _ _
    rw [push_slotAt, memWrite_slotAt, memWrite_sp, memWrite_memMax]
    by_cases h1 : (b : Int) = s.sp + 1
    · rw [if_pos ⟨e1.2 (by omega), h1⟩, if_pos ⟨h, Or.inr h1⟩]
    · by_cases h2 : (b : Int) = s.sp
      · rw [if_neg (fun e => h1 e.2), if_pos ⟨e2.2 (by omega), h2⟩, if_pos ⟨h, Or.inl h2⟩]
      · rw [if_neg (fun e => h1 e.2), if_neg (fun e => h2 e.2), if_neg (by omega)]
  · rename_i h
    rw [push_slotAt, if_neg (by rw [inArray_iff]; omega), if_neg (fun e => h e.1)]

/-- A copy of the top cell keeps the canonical form. -/
theorem pushCopy_wf (v : Cell) (s : State) (h : s.stack.wf s.memMax = true) :
    (pushCopy v s).stack.wf s.memMax = true := by
  unfold pushCopy push
  split
  · exact (memWrite_memMax s.sp v s) ▸ memWrite_wf _ _ _ (by simpa using memWrite_wf s.sp v s h)
  · exact memWrite_wf _ _ _ h

/-- The copy with the top cell inside the array. -/
theorem copyTop_inside {s : State} (h : inArray s.memMax s.sp = true) :
    copyTop s = .done (pushCopy (s.readValue s.sp) (s.afterRead s.sp)) :=
  readCell_inside s _ h

/-! ### The templates -/

/-- BINOP below its depth (40_dispatch.md R110). -/
theorem binop_underflow {need : Int} (check : Int → Int → State → Effect → Effect)
    (f : Int → Int → Int) {s : State} (h : s.sp < need) :
    binop need check f s = .raise .stackUnderflow s := needDepth_fail _ h

/-- BINOP with both operands inside the array (40_dispatch.md R110): the deeper operand is read
first, and the result replaces it. -/
theorem binop_inside {need : Int} (check : Int → Int → State → Effect → Effect)
    (f : Int → Int → Int) {s : State} (h : need ≤ s.sp) (h0 : 1 ≤ s.sp)
    (h1 : s.sp < (s.memMax : Int)) :
    binop need check f s =
      check (s.readValue (s.sp - 1)).toInt ((s.afterRead (s.sp - 1)).readValue s.sp).toInt
        ((s.afterRead (s.sp - 1)).afterRead s.sp)
        (.done (memWrite (s.sp - 1)
          (cellOf (f (s.readValue (s.sp - 1)).toInt
            ((s.afterRead (s.sp - 1)).readValue s.sp).toInt))
          (((s.afterRead (s.sp - 1)).afterRead s.sp).setSp (s.sp - 1)))) := by
  unfold binop
  rw [needDepth_pass _ h, readCell_inside _ _ ((inArray_iff _ _).2 (by omega)), State.afterRead_sp,
    readCell_inside _ _ ((inArray_iff _ _).2 (by rw [State.afterRead_memMax]; omega)),
    State.afterRead_sp, State.afterRead_sp]

/-- UNOP on an empty stack (40_dispatch.md R111). -/
theorem unop_underflow (f : Int → Int) {s : State} (h : s.sp < 0) :
    unop f s = .raise .stackUnderflow s := needDepth_fail _ h

/-- UNOP with its operand inside the array (40_dispatch.md R111). -/
theorem unop_inside (f : Int → Int) {s : State} (h0 : 0 ≤ s.sp)
    (h1 : s.sp < (s.memMax : Int)) :
    unop f s =
      .done (memWrite s.sp (cellOf (f (s.readValue s.sp).toInt)) (s.afterRead s.sp)) := by
  unfold unop
  rw [needDepth_pass _ h0, readCell_inside _ _ ((inArray_iff _ _).2 ⟨h0, h1⟩), State.afterRead_sp]

/-! ### Values -/

theorem wrap_eq_bmod (v : Int) : wrap v = v.bmod 4294967296 := by
  unfold wrap; rw [Int.bmod_def]; split <;> omega

/-- A cell written with `v` holds the low 32 bits of `v`. -/
theorem cellOf_eq (v : Int) : cellOf v = BitVec.ofInt 32 v := by
  apply BitVec.eq_of_toInt_eq
  simp only [cellOf, wrap_eq_bmod, BitVec.toInt_ofInt]
  exact Int.bmod_bmod

/-- `truncdiv` is division rounded toward zero. -/
theorem truncdiv_eq_tdiv (a b : Int) : truncdiv a b = a.tdiv b := by
  cases a with
  | ofNat n => cases b with
    | ofNat m => rfl
    | negSucc m =>
      have h : ¬ ((n : Int) < 0) := by omega
      simp [truncdiv, Int.tdiv, h, Int.negSucc_lt_zero]
  | negSucc n => cases b with
    | ofNat m =>
      have h : ¬ ((m : Int) < 0) := by omega
      simp [truncdiv, Int.tdiv, h, Int.negSucc_lt_zero]
    | negSucc m => simp [truncdiv, Int.tdiv, Int.negSucc_lt_zero]

end Sys2Proof.Machine
end

