-- ==== Sys2Proof/Laws/Exec.lean ====
section
/-! SUPPORT. Every instruction's execute phase, by name, and what all of them have in common: what a
failed pre-check leaves, and what a complete effect can change. -/

namespace Sys2Proof.Machine

/-- The execute phase that `exec` runs for each instruction (40_dispatch.md R103). -/
def effectOf : Instr → State → Effect
  | .loadc c => loadcEffect c
  | .add => binop 1 noCheck fun a b => a + b
  | .sub => binop 1 noCheck fun a b => a - b
  | .mul => binop 1 noCheck fun a b => a * b
  | .div => binop 1 needDivisor truncdiv
  | .mod => binop 1 needDivisor rem
  | .and => binop 1 noCheck logicAnd
  | .or => binop 1 noCheck logicOr
  | .xor => binop 2 noCheck logicXor
  | .eq => binop 1 noCheck relEq
  | .neq => binop 1 noCheck relNeq
  | .le => binop 1 noCheck relLe
  | .leq => binop 1 noCheck relLeq
  | .gr => binop 1 noCheck relGr
  | .geq => binop 1 noCheck relGeq
  | .not => unop logicNot
  | .neg => unop fun v => 0 - v
  | .load => loadEffect
  | .store => storeEffect
  | .loada a => loadaEffect a
  | .storea a => storeaEffect a
  | .pop => popEffect
  | .jump t => jumpEffect t
  | .jumpz t => jumpzEffect t
  | .jumpi t => jumpiEffect t
  | .dup => dupEffect
  | .alloc k => allocEffect k

/-- Every instruction runs in the same phases (40_dispatch.md R100). -/
theorem exec_eq_runInstr (i : Instr) (s : State) : exec i s = runInstr i (effectOf i) s := by
  cases i <;> rfl

/-! ### Failed pre-checks (40_dispatch.md R104) -/

/-- `u` is `s` but for the DRAWs taken. -/
def State.SameButDraws (s u : State) : Prop := u = { s with draws := u.draws }

theorem State.sameButDraws_refl (s : State) : s.SameButDraws s := rfl

theorem State.SameButDraws.afterRead {s u : State} (h : s.SameButDraws u) (a : Int) :
    s.SameButDraws (u.afterRead a) := by
  unfold State.SameButDraws at h ⊢
  rw [State.afterRead_eq, h]

theorem needDepth_raise {n : Int} {s u : State} {e : Effect} {c : Cause}
    (h : needDepth n s e = .raise c u) :
    (u = s ∧ c = .stackUnderflow ∧ s.sp < n) ∨ (n ≤ s.sp ∧ e = .raise c u) := by
  unfold needDepth at h
  split at h
  · cases h; exact Or.inl ⟨rfl, rfl, ‹_›⟩
  · exact Or.inr ⟨by omega, h⟩

theorem needAddress_raise {a l : Int} {s u : State} {e : Effect} {c : Cause}
    (h : needAddress a l s e = .raise c u) :
    (u = s ∧ c = .illegalStackMemoryAccess) ∨ (0 ≤ a ∧ a ≤ l ∧ e = .raise c u) := by
  unfold needAddress at h
  split at h
  · cases h; exact Or.inl ⟨rfl, rfl⟩
  · exact Or.inr ⟨by omega, by omega, h⟩

theorem needTarget_raise {t : Int} {s u : State} {e : Effect} {c : Cause}
    (h : needTarget t s e = .raise c u) :
    (u = s ∧ c = .illegalInstructionAccess) ∨ (t < s.len ∧ e = .raise c u) := by
  unfold needTarget at h
  split at h
  · cases h; exact Or.inl ⟨rfl, rfl⟩
  · exact Or.inr ⟨by omega, h⟩

theorem readCell_raise {a : Int} {s u : State} {k : Cell → State → Effect} {c : Cause}
    (h : readCell a s k = .raise c u) :
    inArray s.memMax a = true ∧ k (s.readValue a) (s.afterRead a) = .raise c u := by
  cases ha : inArray s.memMax a with
  | true => exact ⟨rfl, (readCell_inside s k ha).symm.trans h⟩
  | false => rw [readCell_outside s k ha] at h; cases h

theorem needDepth_done {n : Int} {s u : State} {e : Effect} (h : needDepth n s e = .done u) :
    n ≤ s.sp ∧ e = .done u := by
  unfold needDepth at h
  split at h
  · cases h
  · exact ⟨by omega, h⟩

theorem needAddress_done {a l : Int} {s u : State} {e : Effect}
    (h : needAddress a l s e = .done u) : 0 ≤ a ∧ a ≤ l ∧ e = .done u := by
  unfold needAddress at h
  split at h
  · cases h
  · exact ⟨by omega, by omega, h⟩

theorem needTarget_done {t : Int} {s u : State} {e : Effect} (h : needTarget t s e = .done u) :
    t < s.len ∧ e = .done u := by
  unfold needTarget at h
  split at h
  · cases h
  · exact ⟨by omega, h⟩

theorem readCell_done {a : Int} {s u : State} {k : Cell → State → Effect}
    (h : readCell a s k = .done u) :
    inArray s.memMax a = true ∧ k (s.readValue a) (s.afterRead a) = .done u := by
  cases ha : inArray s.memMax a with
  | true => exact ⟨rfl, (readCell_inside s k ha).symm.trans h⟩
  | false => rw [readCell_outside s k ha] at h; cases h

/-- Everything a BINOP that completes has done (40_dispatch.md R110). -/
theorem binop_done {need : Int} {check : Int → Int → State → Effect → Effect}
    {f : Int → Int → Int} {s u : State}
    (hcheck : ∀ a b t e, check a b t e = .done u → e = .done u)
    (h : binop need check f s = .done u) :
    need ≤ s.sp ∧ inArray s.memMax (s.sp - 1) = true ∧ inArray s.memMax s.sp = true ∧
    u = memWrite (s.sp - 1)
          (cellOf (f (s.readValue (s.sp - 1)).toInt
            ((s.afterRead (s.sp - 1)).readValue s.sp).toInt))
          (((s.afterRead (s.sp - 1)).afterRead s.sp).setSp (s.sp - 1)) := by
  unfold binop at h
  obtain ⟨h0, h⟩ := needDepth_done h
  obtain ⟨h1, h⟩ := readCell_done h
  obtain ⟨h2, h⟩ := readCell_done h
  have h := hcheck _ _ _ _ h
  simp only [State.afterRead_sp, State.afterRead_memMax] at h h2
  cases h
  exact ⟨h0, h1, h2, rfl⟩

/-- Everything a copy of the top cell has done when it completes. -/
theorem copyTop_done {s u : State} (h : copyTop s = .done u) :
    inArray s.memMax s.sp = true ∧ u = pushCopy (s.readValue s.sp) (s.afterRead s.sp) := by
  obtain ⟨h1, h⟩ := readCell_done h
  cases h
  exact ⟨h1, rfl⟩

/-- A copy of the top cell raises no fault itself. -/
theorem copyTop_raise {s u : State} {c : Cause} : copyTop s ≠ .raise c u := by
  intro h
  obtain ⟨-, h⟩ := readCell_raise h
  cases h

/-- What LOADA does behind its address check: a copy of the top cell, or a push of another one. -/
theorem loadaEffect_done {a : Int} {s u : State} (h : loadaEffect a s = .done u) :
    0 ≤ a ∧ a ≤ s.sp ∧ inArray s.memMax a = true ∧
    ((a = s.sp ∧ u = pushCopy (s.readValue s.sp) (s.afterRead s.sp)) ∨
     (a < s.sp ∧ u = push (s.readValue a) (s.afterRead a))) := by
  obtain ⟨h0, h1, h⟩ := needAddress_done h
  split at h
  · rename_i e
    obtain ⟨h2, h⟩ := copyTop_done h
    exact ⟨h0, h1, e ▸ h2, Or.inl ⟨e, h⟩⟩
  · obtain ⟨h2, h⟩ := readCell_done h
    cases h
    exact ⟨h0, h1, h2, Or.inr ⟨by omega, rfl⟩⟩

/-- Everything a UNOP that completes has done (40_dispatch.md R111). -/
theorem unop_done {f : Int → Int} {s u : State} (h : unop f s = .done u) :
    0 ≤ s.sp ∧ inArray s.memMax s.sp = true ∧
    u = memWrite s.sp (cellOf (f (s.readValue s.sp).toInt)) (s.afterRead s.sp) := by
  unfold unop at h
  obtain ⟨h0, h⟩ := needDepth_done h
  obtain ⟨h1, h⟩ := readCell_done h
  simp only [State.afterRead_sp] at h
  cases h
  exact ⟨h0, h1, rfl⟩

theorem needDivisor_done {a b : Int} {s u : State} {e : Effect}
    (h : needDivisor a b s e = .done u) : e = .done u := by
  unfold needDivisor at h
  split at h
  · cases h
  · exact h

theorem needDivisor_raise {a b : Int} {s u v : State} {c : Cause}
    (h : needDivisor a b s (.done v) = .raise c u) : u = s ∧ c = .divisionByZero := by
  unfold needDivisor at h
  split at h
  · cases h; exact ⟨rfl, rfl⟩
  · cases h

/-- A BINOP that faults has only read its operands. -/
theorem binop_raise {need : Int} {check : Int → Int → State → Effect → Effect}
    {f : Int → Int → Int} {s u : State} {c : Cause}
    (hcheck : ∀ a b t v, check a b t (.done v) = .raise c u → u = t ∧ c = .divisionByZero)
    (h : binop need check f s = .raise c u) :
    s.SameButDraws u ∧ (c = .stackUnderflow ∨ c = .divisionByZero) := by
  unfold binop at h
  rcases needDepth_raise h with ⟨rfl, rfl, -⟩ | ⟨-, h⟩
  · exact ⟨State.sameButDraws_refl _, Or.inl rfl⟩
  · obtain ⟨-, h⟩ := readCell_raise h
    obtain ⟨-, h⟩ := readCell_raise h
    obtain ⟨rfl, rfl⟩ := hcheck _ _ _ _ h
    exact ⟨((State.sameButDraws_refl _).afterRead _).afterRead _, Or.inr rfl⟩

/-- A UNOP that faults has done nothing. -/
theorem unop_raise {f : Int → Int} {s u : State} {c : Cause} (h : unop f s = .raise c u) :
    u = s ∧ c = .stackUnderflow := by
  unfold unop at h
  rcases needDepth_raise h with ⟨rfl, rfl, -⟩ | ⟨-, h⟩
  · exact ⟨rfl, rfl⟩
  · obtain ⟨-, h⟩ := readCell_raise h
    cases h

theorem noCheck_raise {a b : Int} {s u v : State} {c : Cause}
    (h : noCheck a b s (.done v) = .raise c u) : u = s ∧ c = .divisionByZero := by
  cases h

/-- A failed pre-check leaves everything but the number of DRAWs taken (40_dispatch.md R104). -/
theorem effectOf_raise {i : Instr} {s u : State} {c : Cause} (h : effectOf i s = .raise c u) :
    s.SameButDraws u := by
  have hb : ∀ (n : Int) (f : Int → Int → Int), binop n noCheck f s = .raise c u →
      s.SameButDraws u :=
    fun n f h => (binop_raise (check := noCheck) (fun _ _ _ _ h => noCheck_raise h) h).1
  have hd : ∀ (n : Int) (f : Int → Int → Int), binop n needDivisor f s = .raise c u →
      s.SameButDraws u :=
    fun n f h => (binop_raise (check := needDivisor) (fun _ _ _ _ h => needDivisor_raise h) h).1
  cases i
  case loadc => cases h
  case add => exact hb _ _ h
  case sub => exact hb _ _ h
  case mul => exact hb _ _ h
  case div => exact hd _ _ h
  case mod => exact hd _ _ h
  case and => exact hb _ _ h
  case or => exact hb _ _ h
  case xor => exact hb _ _ h
  case eq => exact hb _ _ h
  case neq => exact hb _ _ h
  case le => exact hb _ _ h
  case leq => exact hb _ _ h
  case gr => exact hb _ _ h
  case geq => exact hb _ _ h
  case not => rw [(unop_raise h).1]; exact s.sameButDraws_refl
  case neg => rw [(unop_raise h).1]; exact s.sameButDraws_refl
  case load =>
    rcases needDepth_raise h with ⟨rfl, -, -⟩ | ⟨-, h⟩
    · exact State.sameButDraws_refl _
    · obtain ⟨-, h⟩ := readCell_raise h
      rcases needAddress_raise h with ⟨rfl, -⟩ | ⟨-, -, h⟩
      · exact s.sameButDraws_refl.afterRead _
      · obtain ⟨-, h⟩ := readCell_raise h
        cases h
  case store =>
    rcases needDepth_raise h with ⟨rfl, -, -⟩ | ⟨-, h⟩
    · exact State.sameButDraws_refl _
    · obtain ⟨-, h⟩ := readCell_raise h
      rcases needAddress_raise h with ⟨rfl, -⟩ | ⟨-, -, h⟩
      · exact s.sameButDraws_refl.afterRead _
      · obtain ⟨-, h⟩ := readCell_raise h
        cases h
  case loada =>
    rcases needAddress_raise h with ⟨rfl, -⟩ | ⟨-, -, h⟩
    · exact State.sameButDraws_refl _
    · split at h
      · exact absurd h copyTop_raise
      · obtain ⟨-, h⟩ := readCell_raise h
        cases h
  case storea =>
    rcases needDepth_raise h with ⟨rfl, -, -⟩ | ⟨-, h⟩
    · exact State.sameButDraws_refl _
    · rcases needAddress_raise h with ⟨rfl, -⟩ | ⟨-, -, h⟩
      · exact State.sameButDraws_refl _
      · obtain ⟨-, h⟩ := readCell_raise h
        cases h
  case pop =>
    rcases needDepth_raise h with ⟨rfl, -, -⟩ | ⟨-, h⟩
    · exact State.sameButDraws_refl _
    · cases h
  case jump =>
    rcases needTarget_raise h with ⟨rfl, -⟩ | ⟨-, h⟩
    · exact State.sameButDraws_refl _
    · cases h
  case jumpz =>
    rcases needTarget_raise h with ⟨rfl, -⟩ | ⟨-, h⟩
    · exact State.sameButDraws_refl _
    · rcases needDepth_raise h with ⟨rfl, -, -⟩ | ⟨-, h⟩
      · exact State.sameButDraws_refl _
      · obtain ⟨-, h⟩ := readCell_raise h
        cases h
  case jumpi =>
    rcases needTarget_raise h with ⟨rfl, -⟩ | ⟨-, h⟩
    · exact State.sameButDraws_refl _
    · rcases needDepth_raise h with ⟨rfl, -, -⟩ | ⟨-, h⟩
      · exact State.sameButDraws_refl _
      · obtain ⟨-, h⟩ := readCell_raise h
        cases h
  case dup =>
    rcases needDepth_raise h with ⟨rfl, -, -⟩ | ⟨-, h⟩
    · exact State.sameButDraws_refl _
    · exact absurd h copyTop_raise
  case alloc k =>
    simp only [effectOf, allocEffect] at h
    split at h
    · cases h; exact State.sameButDraws_refl _
    · cases h

/-! ### Complete effects -/

/-- `u` differs from `s` at most in the stack array, `sp`, `ip` and the number of DRAWs. -/
def State.SameOutside (s u : State) : Prop :=
  u = { s with stack := u.stack, sp := u.sp, ip := u.ip, draws := u.draws }

theorem State.sameOutside_refl (s : State) : s.SameOutside s := rfl

theorem State.SameOutside.afterRead {s u : State} (h : s.SameOutside u) (a : Int) :
    s.SameOutside (u.afterRead a) := by
  unfold State.SameOutside at h ⊢
  rw [State.afterRead_eq, h]

theorem State.SameOutside.setSp {s u : State} (h : s.SameOutside u) (v : Int) :
    s.SameOutside (u.setSp v) := by
  unfold State.SameOutside at h ⊢
  rw [h]; rfl

theorem State.SameOutside.setIp {s u : State} (h : s.SameOutside u) (v : Int) :
    s.SameOutside (u.setIp v) := by
  unfold State.SameOutside at h ⊢
  rw [h]; rfl

theorem State.SameOutside.setStack {s u : State} (h : s.SameOutside u) (m : Memory) :
    s.SameOutside (u.setStack m) := by
  unfold State.SameOutside at h ⊢
  rw [h]; rfl

theorem State.SameOutside.memWrite {s u : State} (h : s.SameOutside u) (a : Int) (v : Cell) :
    s.SameOutside (memWrite a v u) := by
  rw [memWrite_eq]; exact h.setStack _

theorem State.SameOutside.push {s u : State} (h : s.SameOutside u) (v : Cell) :
    s.SameOutside (push v u) := (h.setSp _).memWrite _ _

theorem State.SameOutside.pushCopy {s u : State} (h : s.SameOutside u) (v : Cell) :
    s.SameOutside (pushCopy v u) := by
  rw [pushCopy_eq]; exact (h.setSp _).setStack _

/-- A complete effect changes the stack array, `sp`, `ip` and the DRAWs at most: never PROG, the
heap, `hp`, STATUS or FAULT_IP (10_state.md R24, R26, R28, R31). -/
theorem effectOf_done {i : Instr} {s u : State} (h : effectOf i s = .done u) :
    s.SameOutside u := by
  have hb : ∀ (n : Int) (f : Int → Int → Int), binop n noCheck f s = .done u →
      s.SameOutside u := by
    intro n f h
    obtain ⟨-, -, -, rfl⟩ := binop_done (fun _ _ _ _ h => h) h
    exact (((s.sameOutside_refl.afterRead _).afterRead _).setSp _).memWrite _ _
  have hd : ∀ (n : Int) (f : Int → Int → Int), binop n needDivisor f s = .done u →
      s.SameOutside u := by
    intro n f h
    obtain ⟨-, -, -, rfl⟩ := binop_done (fun _ _ _ _ h => needDivisor_done h) h
    exact (((s.sameOutside_refl.afterRead _).afterRead _).setSp _).memWrite _ _
  have hu : ∀ f : Int → Int, unop f s = .done u → s.SameOutside u := by
    intro f h
    obtain ⟨-, -, rfl⟩ := unop_done h
    exact (s.sameOutside_refl.afterRead _).memWrite _ _
  cases i
  case loadc c => cases h; exact s.sameOutside_refl.push _
  case add => exact hb _ _ h
  case sub => exact hb _ _ h
  case mul => exact hb _ _ h
  case div => exact hd _ _ h
  case mod => exact hd _ _ h
  case and => exact hb _ _ h
  case or => exact hb _ _ h
  case xor => exact hb _ _ h
  case eq => exact hb _ _ h
  case neq => exact hb _ _ h
  case le => exact hb _ _ h
  case leq => exact hb _ _ h
  case gr => exact hb _ _ h
  case geq => exact hb _ _ h
  case not => exact hu _ h
  case neg => exact hu _ h
  case load =>
    obtain ⟨-, h⟩ := needDepth_done h
    obtain ⟨-, h⟩ := readCell_done h
    obtain ⟨-, -, h⟩ := needAddress_done h
    obtain ⟨-, h⟩ := readCell_done h
    cases h
    exact ((s.sameOutside_refl.afterRead _).afterRead _).memWrite _ _
  case store =>
    obtain ⟨-, h⟩ := needDepth_done h
    obtain ⟨-, h⟩ := readCell_done h
    obtain ⟨-, -, h⟩ := needAddress_done h
    obtain ⟨-, h⟩ := readCell_done h
    cases h
    exact (((s.sameOutside_refl.afterRead _).afterRead _).memWrite _ _).setSp _
  case loada a =>
    obtain ⟨-, -, -, ⟨-, rfl⟩ | ⟨-, rfl⟩⟩ := loadaEffect_done h
    · exact (s.sameOutside_refl.afterRead _).pushCopy _
    · exact (s.sameOutside_refl.afterRead _).push _
  case storea a =>
    obtain ⟨-, h⟩ := needDepth_done h
    obtain ⟨-, -, h⟩ := needAddress_done h
    obtain ⟨-, h⟩ := readCell_done h
    cases h
    exact (s.sameOutside_refl.afterRead _).memWrite _ _
  case pop =>
    obtain ⟨-, h⟩ := needDepth_done h
    cases h
    exact s.sameOutside_refl.setSp _
  case jump t =>
    obtain ⟨-, h⟩ := needTarget_done h
    cases h
    exact s.sameOutside_refl.setIp _
  case jumpz t =>
    obtain ⟨-, h⟩ := needTarget_done h
    obtain ⟨-, h⟩ := needDepth_done h
    obtain ⟨-, h⟩ := readCell_done h
    cases h
    split
    · exact ((s.sameOutside_refl.afterRead _).setIp _).setSp _
    · exact (s.sameOutside_refl.afterRead _).setSp _
  case jumpi t =>
    obtain ⟨-, h⟩ := needTarget_done h
    obtain ⟨-, h⟩ := needDepth_done h
    obtain ⟨-, h⟩ := readCell_done h
    cases h
    exact ((s.sameOutside_refl.afterRead _).setIp _).setSp _
  case dup =>
    obtain ⟨-, h⟩ := needDepth_done h
    obtain ⟨-, rfl⟩ := copyTop_done h
    exact (s.sameOutside_refl.afterRead _).pushCopy _
  case alloc k =>
    simp only [effectOf, allocEffect] at h
    split at h
    · cases h
    · cases h; exact (s.sameOutside_refl.setStack _).setSp _

end Sys2Proof.Machine
end

