-- ==== Sys2Proof/Laws/PerInstr.lean ====
section
/-! SUPPORT. One lemma per instruction: the OPC byte of the encoded word is the instruction's OPC
number, so fault entry latches the fetched word's byte (60_exceptions.md R310). -/

namespace Sys2Proof.Laws.OpcByte

/-- The OPC byte of the encoded word, and its reserved bits (30_encoding.md R71). -/
def Statement (i : Instr) : Prop :=
  opcField (encode i) = opcOf i ∧ rsvField (encode i) = 0#24

/-- The fields of a word built by concatenation. -/
theorem fields_of_word (arg : BitVec 32) (opc : BitVec 8) :
    opcField (arg ++ 0#24 ++ opc) = opc ∧ rsvField (arg ++ 0#24 ++ opc) = 0#24 :=
  ⟨Machine.extract_append_low (arg ++ 0#24) opc,
   (Machine.extract_append_high (arg ++ 0#24) opc 0 24).trans
     (Machine.extract_append_low arg 0#24)⟩

theorem loadc (c : Int) : Statement (.loadc c) := fields_of_word _ _
theorem add : Statement .add := fields_of_word _ _
theorem sub : Statement .sub := fields_of_word _ _
theorem mul : Statement .mul := fields_of_word _ _
theorem div : Statement .div := fields_of_word _ _
theorem mod : Statement .mod := fields_of_word _ _
theorem and : Statement .and := fields_of_word _ _
theorem or : Statement .or := fields_of_word _ _
theorem xor : Statement .xor := fields_of_word _ _
theorem eq : Statement .eq := fields_of_word _ _
theorem neq : Statement .neq := fields_of_word _ _
theorem le : Statement .le := fields_of_word _ _
theorem leq : Statement .leq := fields_of_word _ _
theorem gr : Statement .gr := fields_of_word _ _
theorem geq : Statement .geq := fields_of_word _ _
theorem not : Statement .not := fields_of_word _ _
theorem neg : Statement .neg := fields_of_word _ _
theorem load : Statement .load := fields_of_word _ _
theorem store : Statement .store := fields_of_word _ _
theorem loada (a : Int) : Statement (.loada a) := fields_of_word _ _
theorem storea (a : Int) : Statement (.storea a) := fields_of_word _ _
theorem pop : Statement .pop := fields_of_word _ _
theorem jump (t : Int) : Statement (.jump t) := fields_of_word _ _
theorem jumpz (t : Int) : Statement (.jumpz t) := fields_of_word _ _
theorem jumpi (t : Int) : Statement (.jumpi t) := fields_of_word _ _
theorem dup : Statement .dup := fields_of_word _ _
theorem alloc (k : Int) : Statement (.alloc k) := fields_of_word _ _

end Sys2Proof.Laws.OpcByte
end

