-- ==== Sys2Proof/Tests/Slice0.lean ====
section
/-! SUPPORT. The model's own tests. The expected results are the spec's: 95_test_vectors.md by the
vector's number, the encoding rules of 30_encoding.md, or a rule's own words. After them, for each
statement of Obligations.lean that has hypotheses, a state that meets them. -/

namespace Sys2Proof.Tests

open Sys2Proof Sys2Proof.Machine Sys2Proof.Statements

/-! ### Well-formedness: ill-formed terms are refused (30_encoding.md R73, R75; 00_scope.md R7) -/

theorem test_loadc_refuses_argument_out_of_range :
    (Instr.loadc 2147483648).wellFormed = false ∧ (Instr.loadc (-2147483649)).wellFormed = false := by
  decide
theorem test_loada_refuses_argument_out_of_range :
    (Instr.loada 2147483648).wellFormed = false ∧ (Instr.loada (-2147483649)).wellFormed = false := by
  decide
theorem test_storea_refuses_argument_out_of_range :
    (Instr.storea 2147483648).wellFormed = false ∧ (Instr.storea (-2147483649)).wellFormed = false := by
  decide
theorem test_jump_refuses_argument_out_of_range :
    (Instr.jump 2147483648).wellFormed = false ∧ (Instr.jump (-2147483649)).wellFormed = false := by
  decide
theorem test_jumpz_refuses_argument_out_of_range :
    (Instr.jumpz 2147483648).wellFormed = false ∧ (Instr.jumpz (-2147483649)).wellFormed = false := by
  decide
theorem test_jumpi_refuses_argument_out_of_range :
    (Instr.jumpi 2147483648).wellFormed = false ∧ (Instr.jumpi (-2147483649)).wellFormed = false := by
  decide
theorem test_alloc_refuses_argument_out_of_range :
    (Instr.alloc 2147483648).wellFormed = false ∧ (Instr.alloc (-2147483649)).wellFormed = false := by
  decide
theorem test_argument_limits_are_accepted :
    (Instr.loadc 2147483647).wellFormed = true ∧
    (Instr.loadc (-2147483648)).wellFormed = true := by decide
theorem test_length_out_of_range_is_refused (words : List InstrWord)
    (h : words.length = 2147483648) : lengthInRange words = false := by
  unfold lengthInRange; rw [h]; decide
theorem test_length_limit_is_accepted (words : List InstrWord)
    (h : words.length = 2147483647) : lengthInRange words = true := by
  unfold lengthInRange; rw [h]; decide
/-- E8 to E11: the three tests of R75. -/
theorem test_malformed_words_are_refused :
    wordWellFormed 0x0000000100000001#64 = false ∧ wordWellFormed 0x000000000000001B#64 = false ∧
    wordWellFormed 0x00000000000000FF#64 = false ∧
    wordWellFormed 0x0000000000000100#64 = false := by decide
theorem test_malformed_words_are_named :
    decode 0x0000000100000001#64 = .error .argumentNotZero ∧
    decode 0x000000000000001B#64 = .error .opcodeOutsideSet ∧
    decode 0x0000000080000000#64 = .error .reservedNotZero := ⟨rfl, rfl, rfl⟩

/-! ### Decoding: one word for every row, written out from R71's fields and R72's numbers -/

theorem test_decode_loadc : decodeWord 0xFFFFFFFF00000000#64 = some (.loadc (-1)) := by decide
theorem test_decode_add : decodeWord 0x0000000000000001#64 = some .add := by decide
theorem test_decode_sub : decodeWord 0x0000000000000002#64 = some .sub := by decide
theorem test_decode_mul : decodeWord 0x0000000000000003#64 = some .mul := by decide
theorem test_decode_div : decodeWord 0x0000000000000004#64 = some .div := by decide
theorem test_decode_mod : decodeWord 0x0000000000000005#64 = some .mod := by decide
theorem test_decode_and : decodeWord 0x0000000000000006#64 = some .and := by decide
theorem test_decode_or : decodeWord 0x0000000000000007#64 = some .or := by decide
theorem test_decode_xor : decodeWord 0x0000000000000008#64 = some .xor := by decide
theorem test_decode_eq : decodeWord 0x0000000000000009#64 = some .eq := by decide
theorem test_decode_neq : decodeWord 0x000000000000000A#64 = some .neq := by decide
theorem test_decode_le : decodeWord 0x000000000000000B#64 = some .le := by decide
theorem test_decode_leq : decodeWord 0x000000000000000C#64 = some .leq := by decide
theorem test_decode_gr : decodeWord 0x000000000000000D#64 = some .gr := by decide
theorem test_decode_geq : decodeWord 0x000000000000000E#64 = some .geq := by decide
theorem test_decode_not : decodeWord 0x000000000000000F#64 = some .not := by decide
theorem test_decode_neg : decodeWord 0x0000000000000010#64 = some .neg := by decide
theorem test_decode_load : decodeWord 0x0000000000000011#64 = some .load := by decide
theorem test_decode_store : decodeWord 0x0000000000000012#64 = some .store := by decide
theorem test_decode_loada : decodeWord 0x0000000100000013#64 = some (.loada 1) := by decide
theorem test_decode_storea : decodeWord 0x7FFFFFFF00000014#64 = some (.storea 2147483647) := by decide
theorem test_decode_pop : decodeWord 0x0000000000000015#64 = some .pop := by decide
theorem test_decode_jump : decodeWord 0x0000000300000016#64 = some (.jump 3) := by decide
theorem test_decode_jumpz : decodeWord 0x0000000F00000017#64 = some (.jumpz 15) := by decide
theorem test_decode_jumpi : decodeWord 0x8000000000000018#64 = some (.jumpi (-2147483648)) := by decide
theorem test_decode_dup : decodeWord 0x0000000000000019#64 = some .dup := by decide
theorem test_decode_alloc : decodeWord 0xFFFFFFFE0000001A#64 = some (.alloc (-2)) := by decide

theorem test_encode_alloc : encode (.alloc (-2)) = 0xFFFFFFFE0000001A#64 := by decide
theorem test_encode_storea : encode (.storea 1) = 0x0000000100000014#64 := by decide
/-- Bits above the row's are 0. -/
theorem test_decodeTableWord :
    decodeTableWord 64 0xFFFFFFFF00000000 = some (.loadc (-1)) ∧
    decodeTableWord 32 0xFFFFFFFF00000015 = some .pop ∧
    decodeTableWord 64 0x100000001 = none := by decide

/-! ### Reset (10_state.md R35) -/

/-- G1. -/
theorem test_reset : State.reset.sp = -1 ∧ State.reset.hp = -1 ∧ State.reset.ip = 0 ∧
    State.reset.status = 0x0001#16 ∧ State.reset.runAnswer = some .success := by decide
/-- G2. -/
theorem test_construct : (State.construct [0#64, 0#64, 0#64]).status = 0x0000#16 ∧
    (State.construct [0#64, 0#64, 0#64]).faultIp = 0 := by decide

/-! ### One step: the vectors of 95_test_vectors.md, section 3

Each is one STEP of the word at index 0 of a program of length 1 (section 3.4: 4), the cells of the
start stack bottom to top. -/

/-- The cells from index `a` up, each written with its value. -/
def cellsFrom : Nat → List Int → Memory
  | _, [] => []
  | a, v :: vs => (a, ⟨BitVec.ofInt 32 v, true⟩) :: cellsFrom (a + 1) vs

/-- The start state of a vector: word `w` at index 0 of a program of length `n + 1`. -/
def start (n : Nat) (w : InstrWord) (cells : List Int) : State :=
  { State.construct (w :: List.replicate n 0#64) with
    stack := cellsFrom 0 cells
    sp := (cells.length : Int) - 1 }

/-- A start state whose stack is full; only the cells given have been written. -/
def fullStart (n : Nat) (w : InstrWord) (cells : List Int) : State :=
  { start n w cells with sp := 65535 }

/-- The state after one step that answers a next state. -/
def after (s : State) : State :=
  match step s with
  | .next t => t
  | .fault _ => s
  | .refused _ => s

/-- What a cell holds if it is defined. -/
def shownCell (s : State) (a : Nat) : Option Int :=
  (s.slotAt a).bind fun x => if x.defined then some x.value.toInt else none

/-- The live cells bottom to top, `ip` and STATUS after one step. -/
def result (s : State) : List (Option Int) × Int × BitVec 16 :=
  ((List.range ((after s).sp + 1).toNat).map (shownCell (after s)), (after s).ip, (after s).status)

/-- HALTED with these cells. -/
def halts (cells : List Int) : List (Option Int) × Int × BitVec 16 := (cells.map some, 1, 0x0001#16)

/-- A2. -/
theorem test_add_wraps : result (start 0 0x0000000000000001#64 [2147483647, 1]) = halts [-2147483648] := by decide
/-- A6. -/
theorem test_add_underflow : result (start 0 0x0000000000000001#64 [5]) =
    ([some 5], 1, 0x0112#16) := by decide
/-- A9. -/
theorem test_sub_order : result (start 0 0x0000000000000002#64 [5, 10]) = halts [-5] := by decide
/-- A10. -/
theorem test_sub_wraps : result (start 0 0x0000000000000002#64 [-2147483648, 1]) = halts [2147483647] := by decide
/-- A15. -/
theorem test_mul_wraps : result (start 0 0x0000000000000003#64 [2147483647, 2]) = halts [-2] := by decide
/-- A17. -/
theorem test_mul_signed : result (start 0 0x0000000000000003#64 [-3, 4]) = halts [-12] := by decide
/-- A20. -/
theorem test_div_truncates : result (start 0 0x0000000000000004#64 [-7, 2]) = halts [-3] := by decide
/-- A23. -/
theorem test_div_min_by_minus_one : result (start 0 0x0000000000000004#64 [-2147483648, -1]) = halts [-2147483648] := by decide
/-- A24. -/
theorem test_div_by_zero : result (start 0 0x0000000000000004#64 [10, 0]) =
    ([some 10, some 0], 1, 0x0432#16) := by decide
/-- A28. -/
theorem test_mod_sign : result (start 0 0x0000000000000005#64 [-7, 2]) = halts [-1] := by decide
/-- A29. -/
theorem test_mod_positive : result (start 0 0x0000000000000005#64 [7, -2]) = halts [1] := by decide
/-- A33. -/
theorem test_neg : result (start 0 0x0000000000000010#64 [7]) = halts [-7] := by decide
/-- A34. -/
theorem test_neg_min : result (start 0 0x0000000000000010#64 [-2147483648]) = halts [-2147483648] := by decide
/-- B1. -/
theorem test_and_is_logical : result (start 0 0x0000000000000006#64 [2, 4]) = halts [1] := by decide
/-- B2. -/
theorem test_and_zero : result (start 0 0x0000000000000006#64 [-1, 0]) = halts [0] := by decide
/-- B5. -/
theorem test_or_zero : result (start 0 0x0000000000000007#64 [0, 0]) = halts [0] := by decide
/-- B6. -/
theorem test_or_min : result (start 0 0x0000000000000007#64 [-2147483648, 0]) = halts [1] := by decide
/-- B10. -/
theorem test_xor_truth_values : result (start 0 0x0000000000000008#64 [9, 3, 5]) = halts [9, 0] := by decide
/-- B13. -/
theorem test_xor_needs_three : result (start 0 0x0000000000000008#64 [1, 0]) =
    ([some 1, some 0], 1, 0x0812#16) := by decide
/-- B16. -/
theorem test_eq : result (start 0 0x0000000000000009#64 [-2147483648, -2147483648]) = halts [1] := by decide
/-- B17. -/
theorem test_eq_differ : result (start 0 0x0000000000000009#64 [-1, 2147483647]) = halts [0] := by decide
/-- B18. -/
theorem test_neq : result (start 0 0x000000000000000A#64 [4, 5]) = halts [1] := by decide
/-- B19. -/
theorem test_neq_same : result (start 0 0x000000000000000A#64 [7, 7]) = halts [0] := by decide
/-- B21. -/
theorem test_le_signed : result (start 0 0x000000000000000B#64 [-1, 0]) = halts [1] := by decide
/-- B22. -/
theorem test_le_strict : result (start 0 0x000000000000000B#64 [3, 3]) = halts [0] := by decide
/-- B24. -/
theorem test_leq : result (start 0 0x000000000000000C#64 [5, 5]) = halts [1] := by decide
/-- B25. -/
theorem test_leq_signed : result (start 0 0x000000000000000C#64 [2147483647, -2147483648]) = halts [0] := by decide
/-- B27. -/
theorem test_gr : result (start 0 0x000000000000000D#64 [5, 0]) = halts [1] := by decide
/-- B29. -/
theorem test_gr_signed : result (start 0 0x000000000000000D#64 [-2147483648, 2147483647]) = halts [0] := by decide
/-- B31. -/
theorem test_geq : result (start 0 0x000000000000000E#64 [3, 3]) = halts [1] := by decide
/-- B33. -/
theorem test_geq_underflow : result (start 0 0x000000000000000E#64 [5]) =
    ([some 5], 1, 0x0E12#16) := by decide
/-- B36. -/
theorem test_not_of_minus_one : result (start 0 0x000000000000000F#64 [-1]) = halts [0] := by decide
/-- B34. -/
theorem test_not_of_zero : result (start 0 0x000000000000000F#64 [0]) = halts [1] := by decide
/-- M3. -/
theorem test_loadc : result (start 0 0x8000000000000000#64 [1]) = halts [1, -2147483648] := by decide
/-- M4. -/
theorem test_loadc_at_full_capacity : (after (fullStart 0 0x0000000100000000#64 [])).sp = 65536 ∧
    (after (fullStart 0 0x0000000100000000#64 [])).status = 0x0042#16 ∧
    (after (fullStart 0 0x0000000100000000#64 [])).stack = [] := by decide
/-- M5. -/
theorem test_load : result (start 0 0x0000000000000011#64 [42, 0]) = halts [42, 42] := by decide
/-- M7. -/
theorem test_load_above_sp : result (start 0 0x0000000000000011#64 [42, 2]) =
    ([some 42, some 2], 1, 0x1122#16) := by decide
/-- M11. -/
theorem test_store_pops_both : result (start 0 0x0000000000000012#64 [0, 0, 7, 1]) = halts [0, 7] := by decide
/-- M13. -/
theorem test_store_at_sp : result (start 0 0x0000000000000012#64 [5, 1]) =
    ([some 5, some 1], 1, 0x1222#16) := by decide
/-- M19. -/
theorem test_loada : result (start 0 0x0000000100000013#64 [3, 4]) = halts [3, 4, 4] := by decide
/-- M22. -/
theorem test_loada_on_empty_stack : result (start 0 0x0000000000000013#64 []) =
    ([], 1, 0x1322#16) := by decide
/-- M24. -/
theorem test_storea : result (start 0 0x0000000000000014#64 [1, 2]) = halts [2, 2] := by decide
/-- M28. -/
theorem test_storea_depth_before_address : result (start 0 0x0000000000000014#64 []) =
    ([], 1, 0x1412#16) := by decide
/-- M29. -/
theorem test_pop : result (start 0 0x0000000000000015#64 [3]) = halts [] := by decide
/-- M30. -/
theorem test_pop_underflow : result (start 0 0x0000000000000015#64 []) =
    ([], 1, 0x1512#16) := by decide
/-- M31. -/
theorem test_dup : result (start 0 0x0000000000000019#64 [8]) = halts [8, 8] := by decide
/-- M33: both cells hold the same DRAW and are defined. -/
theorem test_dup_of_undefined_cell :
    result { start 0 0x0000000000000019#64 [] with sp := 0 } =
      ([some (Config.draw 0).toInt, some (Config.draw 0).toInt], 1, 0x0001#16) := rfl
/-- R203: LOADA of the top cell behaves like DUP. -/
theorem test_loada_of_undefined_top :
    result { start 0 0x0000000000000013#64 [] with sp := 0 } =
      ([some (Config.draw 0).toInt, some (Config.draw 0).toInt], 1, 0x0001#16) := rfl
/-- M34: nothing is written. -/
theorem test_dup_at_full_capacity :
    (after (fullStart 0 0x0000000000000019#64 [])).sp = 65536 ∧
    (after (fullStart 0 0x0000000000000019#64 [])).status = 0x1942#16 ∧
    (after (fullStart 0 0x0000000000000019#64 [])).stack = [] := by decide
/-- R5: in a block of two cells the third push overflows. -/
theorem test_capacity_is_a_parameter :
    result { start 0 0x0000000100000000#64 [7] with memMax := 2 } = halts [7, 1] ∧
    (after { start 0 0x0000000100000000#64 [7, 8] with memMax := 2 }).status = 0x0042#16 ∧
    (State.construct [0#64]).memMax = 65536 ∧ (State.construct [0#64] 2).memMax = 2 := by decide
/-- A heap index at the capacity, and one below it (00_scope.md R5). -/
theorem test_heap_is_bounded_by_the_capacity :
    Heap.wf [(2, 0#32)] 2 = false ∧ Heap.wf [(1, 0#32)] 2 = true ∧
    Memory.wf [(2, ⟨0#32, true⟩)] 2 = false := by decide
/-- M42: cell 2 held 5. -/
theorem test_alloc_exposes_undefined_cells :
    result { start 0 0x000000010000001A#64 [1, 2, 5] with sp := 1 } =
      ([some 1, some 2, none], 1, 0x0001#16) := by decide
/-- M39. -/
theorem test_alloc_below_empty : result (start 0 0xFFFFFFFD0000001A#64 [1, 2]) =
    ([some 1, some 2], 1, 0x1A12#16) := by decide
/-- K1. -/
theorem test_jump : result (start 3 0x0000000300000016#64 []) =
    ([], 3, 0x0000#16) := by decide
/-- K4. -/
theorem test_jump_negative : result (start 3 0xFFFFFFFF00000016#64 []) =
    ([], -1, 0x1652#16) := by decide
/-- K7. -/
theorem test_jumpz_only_on_zero : result (start 3 0x0000000300000017#64 [-1]) =
    ([], 1, 0x0000#16) := by decide
/-- K11. -/
theorem test_jumpz_target_before_depth : result (start 3 0x0000000900000017#64 []) =
    ([], 1, 0x1752#16) := by decide
/-- K15. -/
theorem test_jumpi_to_len : result (start 3 0x0000000100000018#64 [3]) =
    ([], 4, 0x0001#16) := by decide
/-- K22. -/
theorem test_jumpi_exact_sum : result (start 3 0x8000000000000018#64 [-2147483648]) =
    ([], -4294967296, 0x1852#16) := by decide

/-- E10, executed (95_test_vectors.md section 2). -/
theorem test_malformed_word_faults : result (start 0 0x00000000000000FF#64 [5, 6]) =
    ([some 5, some 6], 1, 0xFF62#16) := by decide
/-- G3, G4: a step outside RUNNING changes nothing. -/
theorem test_halted_step : after State.reset = State.reset := by decide
/-- W6, by STEP from the state before the fault: FAULT_IP is the index of DIV. -/
theorem test_fault_ip :
    (after { start 2 0#64 [10, 0] with
      prog := [0x0000000A00000000#64, 0#64, 0x0000000000000004#64], ip := 2 }).faultIp = 2 := by
  decide
/-- The word placed for the next step is the one that runs. -/
theorem test_withFetchWord_runs :
    (after (State.reset.withFetchWord 64 0x0000000A00000000)).stack =
      [(0, ⟨0x0000000A#32, true⟩)] := by decide
/-- STACK_RD of a dead, defined cell (93_implementation_defined.md U3), and outside the array. -/
theorem test_stackRd : ({ start 0 0#64 [3, 4] with sp := 0 } : State).stackRd 0 1 = some 4#32 ∧
    (start 0 0#64 [3, 4]).stackRd 0 65536 = none := by decide
/-- W1's text (30_encoding.md R78). -/
theorem test_assemble :
    assemble ['L', 'O', 'A', 'D', 'C', ' ', '1', '0', ';', ' ', 'L', 'O', 'A', 'D', 'C', '(', '-',
      '5', ')', '\n', 'A', 'D', 'D'] = some [.loadc 10, .loadc (-5), .add] ∧
    assemble ['A', 'D', 'D', ' ', '1'] = none ∧ assemble ['P', 'O', 'P', 'S'] = none := by decide

/-! ### States that meet the statements' hypotheses

One theorem for each statement of Obligations.lean that has hypotheses, by the statement's name,
with a state for each of its clauses, at the boundary where the clause has one. -/

/-- A start state at index 0 of a program of four words. -/
abbrev atZero (cells : List Int) : State := start 3 0#64 cells

/-- The same with a full stack. -/
abbrev atZeroFull (cells : List Int) : State := fullStart 3 0#64 cells

/-- The operands of a binary instruction: below depth `need`, at it, and with a full stack. -/
theorem witness_binary (need : Int) (h : need = 1 ∨ need = 2) :
    ((atZero []).AtInstruction ∧ (atZero []).sp < need) ∧
    ((atZero [7]).AtInstruction ∧ (atZero [7]).sp < need) ∧
    ((atZero [9, 7, 2]).AtInstruction ∧ need ≤ (atZero [9, 7, 2]).sp) ∧
    ((atZeroFull []).AtInstruction ∧ need ≤ (atZeroFull []).sp) := by
  rcases h with rfl | rfl <;> decide

theorem witness_AddSubMulReplaceOperandsByWrappedResult :
    (atZero [7]).AtInstruction ∧ (atZero [7]).sp < 1 ∧
    (atZero [7, 2]).AtInstruction ∧ 1 ≤ (atZero [7, 2]).sp ∧
    (atZeroFull []).AtInstruction ∧ 1 ≤ (atZeroFull []).sp := by decide

theorem witness_DivModTruncateAndFaultOnZero :
    ((atZero [0]).AtInstruction ∧ (atZero [0]).sp < 1) ∧
    ((atZero [7, 0]).AtInstruction ∧ 1 ≤ (atZero [7, 0]).sp ∧
      (((atZero [7, 0]).afterRead 0).readValue (atZero [7, 0]).sp).toInt = 0) ∧
    ((atZero [7, -1]).AtInstruction ∧ 1 ≤ (atZero [7, -1]).sp ∧
      (((atZero [7, -1]).afterRead 0).readValue (atZero [7, -1]).sp).toInt ≠ 0) := by decide

theorem witness_NegReplacesTopByWrappedNegation :
    ((atZero []).AtInstruction ∧ (atZero []).sp < 0) ∧
    ((atZero [7]).AtInstruction ∧ 0 ≤ (atZero [7]).sp) := by decide

theorem witness_AndOrActOnTruthValues :
    (atZero [7]).AtInstruction ∧ (atZero [7]).sp < 1 ∧
    (atZero [7, 0]).AtInstruction ∧ 1 ≤ (atZero [7, 0]).sp := by decide

theorem witness_XorNeedsThreeLiveCells :
    (atZero [1, 0]).AtInstruction ∧ (atZero [1, 0]).sp < 2 ∧
    (atZero [9, 1, 0]).AtInstruction ∧ 2 ≤ (atZero [9, 1, 0]).sp := by decide

theorem witness_ComparisonsUseSignedOrder :
    (atZero [7]).AtInstruction ∧ (atZero [7]).sp < 1 ∧
    (atZero [-1, 0]).AtInstruction ∧ 1 ≤ (atZero [-1, 0]).sp := by decide

theorem witness_NotIsLogicalNegation :
    ((atZero []).AtInstruction ∧ (atZero []).sp < 0) ∧
    ((atZero [-1]).AtInstruction ∧ 0 ≤ (atZero [-1]).sp) := by decide

theorem witness_LoadcPushesItsConstant :
    argInRange (-2147483648) = true ∧ argInRange 2147483647 = true ∧
    ((fullStart 3 0#64 []).AtInstruction ∧
      (fullStart 3 0#64 []).sp + 1 = ((fullStart 3 0#64 []).memMax : Int)) ∧
    ({ atZero [] with sp := 65534 } : State).AtInstruction ∧
    ({ atZero [] with sp := 65534 } : State).sp + 1 < ((atZero []).memMax : Int) := by decide

theorem witness_LoadReplacesAddressByCellValue :
    ((atZero []).AtInstruction ∧ (atZero []).sp < 0) ∧
    ((atZero [42, 2]).AtInstruction ∧ 0 ≤ (atZero [42, 2]).sp ∧
      (atZero [42, 2]).sp < ((atZero [42, 2]).readValue 1).toInt) ∧
    ((atZero [42, -1]).AtInstruction ∧ ((atZero [42, -1]).readValue 1).toInt < 0) ∧
    ((atZero [42, 1]).AtInstruction ∧ 0 ≤ ((atZero [42, 1]).readValue 1).toInt ∧
      ((atZero [42, 1]).readValue 1).toInt ≤ (atZero [42, 1]).sp) ∧
    ((atZero [42, 0]).AtInstruction ∧ 0 ≤ ((atZero [42, 0]).readValue 1).toInt ∧
      ((atZero [42, 0]).readValue 1).toInt ≤ (atZero [42, 0]).sp) := by decide

theorem witness_StorePopsBothAndWritesTheCell :
    ((atZero [5]).AtInstruction ∧ (atZero [5]).sp < 1) ∧
    ((atZero [5, 1]).AtInstruction ∧ 1 ≤ (atZero [5, 1]).sp ∧
      (atZero [5, 1]).sp - 1 < ((atZero [5, 1]).readValue 1).toInt) ∧
    ((atZero [5, -1]).AtInstruction ∧ ((atZero [5, -1]).readValue 1).toInt < 0) ∧
    ((atZero [5, 0]).AtInstruction ∧ 0 ≤ ((atZero [5, 0]).readValue 1).toInt ∧
      ((atZero [5, 0]).readValue 1).toInt ≤ (atZero [5, 0]).sp - 1) ∧
    ((atZero [5, 6, 1]).AtInstruction ∧
      ((atZero [5, 6, 1]).readValue 2).toInt ≤ (atZero [5, 6, 1]).sp - 1) := by decide

theorem witness_LoadaPushesTheNamedCell :
    argInRange 1 = true ∧ argInRange (-1) = true ∧
    ((atZero [9]).AtInstruction ∧ (atZero [9]).sp < 1) ∧
    ((atZero []).AtInstruction ∧ (atZero []).sp < 0) ∧
    ((atZero [3, 4, 5]).AtInstruction ∧ 1 < (atZero [3, 4, 5]).sp ∧
      (atZero [3, 4, 5]).sp + 1 < ((atZero [3, 4, 5]).memMax : Int)) ∧
    ((atZero [3, 4]).AtInstruction ∧ 1 = (atZero [3, 4]).sp ∧
      (atZero [3, 4]).sp + 1 < ((atZero [3, 4]).memMax : Int)) ∧
    (argInRange 65535 = true ∧ (atZeroFull []).AtInstruction ∧ 65535 = (atZeroFull []).sp ∧
      (atZeroFull []).sp + 1 = ((atZeroFull []).memMax : Int)) ∧
    ((atZeroFull [7]).AtInstruction ∧ 0 < (atZeroFull [7]).sp ∧
      (atZeroFull [7]).sp + 1 = ((atZeroFull [7]).memMax : Int)) := by decide

theorem witness_StoreaCopiesTopIntoTheNamedCell :
    argInRange 2 = true ∧ argInRange (-1) = true ∧
    ((atZero []).AtInstruction ∧ (atZero []).sp < 0) ∧
    ((atZero [1, 2]).AtInstruction ∧ 0 ≤ (atZero [1, 2]).sp ∧ (atZero [1, 2]).sp < 2) ∧
    ((atZero [1, 2]).AtInstruction ∧ 0 ≤ (atZero [1, 2]).sp ∧ 1 ≤ (atZero [1, 2]).sp) := by
  decide

theorem witness_PopLowersSpAndKeepsCells :
    ((atZero []).AtInstruction ∧ (atZero []).sp < 0) ∧
    ((atZero [3]).AtInstruction ∧ 0 ≤ (atZero [3]).sp) := by decide

theorem witness_DupPushesACopyOfTop :
    ((atZero []).AtInstruction ∧ (atZero []).sp < 0) ∧
    ((atZero [8]).AtInstruction ∧ 0 ≤ (atZero [8]).sp ∧
      (atZero [8]).sp + 1 < ((atZero [8]).memMax : Int)) ∧
    ((atZeroFull []).AtInstruction ∧ 0 ≤ (atZeroFull []).sp ∧
      (atZeroFull []).sp + 1 = ((atZeroFull []).memMax : Int)) := by decide

/-- `sp + k` at -2, -1, MEMMAX - 1 and MEMMAX. -/
theorem witness_AllocMovesSpAndExposesUndefinedCells :
    (argInRange (-3) = true ∧ (atZero [1, 2]).AtInstruction ∧ (atZero [1, 2]).sp + -3 < -1) ∧
    (argInRange (-2) = true ∧ -1 ≤ (atZero [1, 2]).sp + -2 ∧
      (atZero [1, 2]).sp + -2 < ((atZero [1, 2]).memMax : Int)) ∧
    (argInRange 65536 = true ∧ (atZero []).AtInstruction ∧ -1 ≤ (atZero []).sp + 65536 ∧
      (atZero []).sp + 65536 < ((atZero []).memMax : Int)) ∧
    (argInRange 65537 = true ∧ ((atZero []).memMax : Int) ≤ (atZero []).sp + 65537) := by decide

theorem witness_JumpSetsIpToItsTarget :
    (atZero []).AtInstruction ∧ (argInRange 4 = true ∧ (atZero []).len ≤ 4) ∧
    (argInRange (-1) = true ∧ (-1 : Int) < 0) ∧
    (argInRange 3 = true ∧ (0 : Int) ≤ 3 ∧ 3 < (atZero []).len) ∧
    (argInRange 0 = true ∧ 0 < (atZero []).len) := by decide

theorem witness_JumpzPopsAndJumpsOnZero :
    (argInRange 4 = true ∧ (atZero [0]).AtInstruction ∧ (atZero [0]).len ≤ 4) ∧
    (argInRange 3 = true ∧ (atZero []).AtInstruction ∧ 3 < (atZero []).len ∧
      (atZero []).sp < 0) ∧
    ((atZero [-1]).AtInstruction ∧ 3 < (atZero [-1]).len ∧ 0 ≤ (atZero [-1]).sp ∧
      ((atZero [-1]).readValue 0).toInt ≠ 0) ∧
    ((atZero [0]).AtInstruction ∧ 3 < (atZero [0]).len ∧ 0 ≤ (atZero [0]).sp ∧
      ((atZero [0]).readValue 0).toInt = 0) ∧
    (argInRange (-1) = true ∧ (-1 : Int) < 0 ∧ 0 ≤ (atZero [0]).sp ∧
      ((atZero [0]).readValue 0).toInt = 0) := by decide

/-- `t + o` at 0, at LEN, at LEN + 1 and at -1. -/
theorem witness_JumpiJumpsToTheExactSum :
    (argInRange 4 = true ∧ (atZero [0]).AtInstruction ∧ (atZero [0]).len ≤ 4) ∧
    (argInRange 0 = true ∧ (atZero []).AtInstruction ∧ 0 < (atZero []).len ∧
      (atZero []).sp < 0) ∧
    (argInRange 1 = true ∧ (atZero [-1]).AtInstruction ∧ 1 < (atZero [-1]).len ∧
      0 ≤ (atZero [-1]).sp ∧ 1 + ((atZero [-1]).readValue 0).toInt = 0) ∧
    ((atZero [3]).AtInstruction ∧ 1 < (atZero [3]).len ∧ 0 ≤ (atZero [3]).sp ∧
      1 + ((atZero [3]).readValue 0).toInt = (atZero [3]).len) ∧
    ((atZero [4]).AtInstruction ∧ 1 < (atZero [4]).len ∧ 0 ≤ (atZero [4]).sp ∧
      (atZero [4]).len < 1 + ((atZero [4]).readValue 0).toInt) ∧
    ((atZero [-2]).AtInstruction ∧ 0 ≤ (atZero [-2]).sp ∧
      1 + ((atZero [-2]).readValue 0).toInt < 0) := by decide

/-! #### The step -/

theorem witness_StepRunsTheDecodedInstruction :
    Fetches (start 0 0x0000000000000001#64 [10, 5]) 0x0000000000000001#64 ∧
    decode 0x0000000000000001#64 = .ok .add := ⟨by unfold Fetches; decide, rfl⟩

/-- E8, E9 and E11: one word for each of R75's tests. -/
theorem witness_MalformedWordRaisesUnsupportedOperation :
    (Fetches (start 0 0x0000000100000001#64 [5, 6]) 0x0000000100000001#64 ∧
      ¬ WordIsWellFormed 0x0000000100000001#64) ∧
    (Fetches (start 0 0x000000000000001B#64 [5, 6]) 0x000000000000001B#64 ∧
      ¬ WordIsWellFormed 0x000000000000001B#64) ∧
    (Fetches (start 0 0x0000000000000100#64 [5, 6]) 0x0000000000000100#64 ∧
      ¬ WordIsWellFormed 0x0000000000000100#64) := by
  unfold Fetches WordIsWellFormed; decide

theorem witness_StepOutsideRunningChangesNothing :
    State.reset.stateField ≠ 0#2 ∧
    (after (start 0 0x0000000000000001#64 [])).stateField ≠ 0#2 := by decide

theorem witness_UnfaultedStepSetsStateByIp :
    ((atZero [3]).stateField = 0#2 ∧ step (atZero [3]) = .next (after (atZero [3])) ∧
      (after (atZero [3])).stateField ≠ 2#2 ∧ (after (atZero [3])).ip ≠ (atZero [3]).len) ∧
    ((start 0 0#64 []).stateField = 0#2 ∧ step (start 0 0#64 []) = .next (after (start 0 0#64 [])) ∧
      (after (start 0 0#64 [])).stateField ≠ 2#2 ∧
      (after (start 0 0#64 [])).ip = (start 0 0#64 []).len) :=
  ⟨⟨by decide, rfl, by decide, by decide⟩, ⟨by decide, rfl, by decide, by decide⟩⟩

theorem witness_FaultLatchesIndexAndOpcByte :
    let s := start 0 0x0000000000000004#64 [10, 0]
    Fetches s 0x0000000000000004#64 ∧ step s = .next (after s) ∧ (after s).stateField = 2#2 :=
  ⟨by unfold Fetches; decide, rfl, by decide⟩

/-- FCODE 1, 2, 3 and 6. -/
theorem witness_PreCheckFaultLeavesNoEffect :
    (let s := start 0 0x0000000000000001#64 [5];
      s.stateField = 0#2 ∧ step s = .next (after s) ∧ (after s).stateField = 2#2 ∧
      (after s).fcode = 1#4) ∧
    (let s := start 0 0x0000000000000012#64 [5, 1];
      s.stateField = 0#2 ∧ step s = .next (after s) ∧ (after s).stateField = 2#2 ∧
      (after s).fcode = 2#4) ∧
    (let s := start 0 0x0000000000000005#64 [5, 0];
      s.stateField = 0#2 ∧ step s = .next (after s) ∧ (after s).stateField = 2#2 ∧
      (after s).fcode = 3#4) ∧
    (let s := start 0 0x00000000000000FF#64 [5, 6];
      s.stateField = 0#2 ∧ step s = .next (after s) ∧ (after s).stateField = 2#2 ∧
      (after s).fcode = 6#4) :=
  ⟨⟨by decide, rfl, by decide, by decide⟩, ⟨by decide, rfl, by decide, by decide⟩,
   ⟨by decide, rfl, by decide, by decide⟩, ⟨by decide, rfl, by decide, by decide⟩⟩

/-- FCODE 4; FCODE 5 by the post-check (K4), and by the pre-check (K3). -/
theorem witness_PostCheckFaultShowsItsCause :
    (let s := fullStart 0 0x0000000100000000#64 [];
      s.stateField = 0#2 ∧ step s = .next (after s) ∧ (after s).stateField = 2#2 ∧
      (after s).fcode = 4#4) ∧
    (let s := start 3 0xFFFFFFFF00000016#64 [];
      s.stateField = 0#2 ∧ step s = .next (after s) ∧ (after s).stateField = 2#2 ∧
      (after s).fcode = 5#4) ∧
    (let s := start 3 0x0000000400000016#64 [];
      s.stateField = 0#2 ∧ step s = .next (after s) ∧ (after s).stateField = 2#2 ∧
      (after s).fcode = 5#4) :=
  ⟨⟨by decide, rfl, by decide, by decide⟩, ⟨by decide, rfl, by decide, by decide⟩,
   ⟨by decide, rfl, by decide, by decide⟩⟩

/-- FCODE 1 to 5, each raised by one of its instructions. -/
theorem witness_FaultsComeFromTheirOpcodesOnly :
    (let s := start 0 0x0000000000000001#64 [5];
      s.AtInstruction ∧ exec .add s = .next (after s) ∧ (after s).stateField = 2#2 ∧
      (after s).fcode = 1#4) ∧
    (let s := start 0 0x0000000000000013#64 [];
      s.AtInstruction ∧ exec (.loada 0) s = .next (after s) ∧ (after s).stateField = 2#2 ∧
      (after s).fcode = 2#4) ∧
    (let s := start 0 0x0000000000000004#64 [5, 0];
      s.AtInstruction ∧ exec .div s = .next (after s) ∧ (after s).stateField = 2#2 ∧
      (after s).fcode = 3#4) ∧
    (let s := start 0 0x000100010000001A#64 [];
      s.AtInstruction ∧ exec (.alloc 65537) s = .next (after s) ∧ (after s).stateField = 2#2 ∧
      (after s).fcode = 4#4) ∧
    (let s := start 3 0x0000000100000018#64 [4];
      s.AtInstruction ∧ exec (.jumpi 1) s = .next (after s) ∧ (after s).stateField = 2#2 ∧
      (after s).fcode = 5#4) :=
  ⟨⟨by decide, rfl, by decide, by decide⟩, ⟨by decide, rfl, by decide, by decide⟩,
   ⟨by decide, rfl, by decide, by decide⟩, ⟨by decide, rfl, by decide, by decide⟩,
   ⟨by decide, rfl, by decide, by decide⟩⟩

theorem witness_OnlyJumpsLeaveTheSequence :
    ¬ IsJump .neg ∧ exec .neg (start 0 0x0000000000000010#64 [7]) =
      .next (after (start 0 0x0000000000000010#64 [7])) := ⟨id, rfl⟩

theorem witness_StepKeepsProgramHeapAndHp :
    step (start 0 0x0000000000000010#64 [7]) =
      .next (after (start 0 0x0000000000000010#64 [7])) := rfl

/-! #### Decoding, invariants and reachable states -/

theorem witness_DecodeInvertsEncode :
    (Instr.alloc (-2147483648)).wellFormed = true ∧ (Instr.jumpi 2147483647).wellFormed = true ∧
    Instr.dup.wellFormed = true := by decide

theorem witness_EncodeInvertsDecode :
    decode 0xFFFFFFFE0000001A#64 = .ok (.alloc (-2)) ∧ decode 0x15#64 = .ok .pop := ⟨rfl, rfl⟩

theorem witness_ConstructedStatesMeetTheInvariant :
    lengthInRange [0x0000000A00000000#64] = true ∧ lengthInRange [] = true ∧ (1 : Nat) ≤ 1 ∧
    1 ≤ Config.memMaxDefault := by decide

/-- A RUNNING, a HALTED and a FAULTED state with the invariant: the state of three words after
CONSTRUCT, `State.reset`, and the state that ADD on an empty stack leaves. -/
theorem witness_StepKeepsTheInvariant :
    ((atZero [1, 2]).Inv ∧ step (atZero [1, 2]) = .next (after (atZero [1, 2]))) ∧
    (State.reset.Inv ∧ step State.reset = .next State.reset) ∧
    (after (start 0 0x0000000000000001#64 [])).Inv := by
  refine ⟨⟨?_, rfl⟩, ⟨?_, rfl⟩, ?_⟩
  · exact ⟨by decide, rfl, rfl, rfl, rfl, by decide, rfl, by decide,
      fun _ => ⟨by decide, by decide⟩,
      ⟨by decide, by decide⟩, ⟨by decide, by decide⟩, fun _ => by decide,
      fun h => absurd h (by decide), fun h => absurd h (by decide), by decide⟩
  · exact ⟨by decide, rfl, rfl, rfl, rfl, by decide, rfl, by decide,
      fun _ => ⟨by decide, by decide⟩,
      ⟨by decide, by decide⟩, ⟨by decide, by decide⟩, fun h => absurd h (by decide),
      fun _ => by decide, fun h => absurd h (by decide), by decide⟩
  · exact ⟨by decide, rfl, rfl, rfl, rfl, by decide, rfl, by decide,
      fun _ => ⟨by decide, by decide⟩,
      ⟨by decide, by decide⟩, ⟨by decide, by decide⟩, fun h => absurd h (by decide),
      fun h => absurd h (by decide), fun _ => by decide, by decide⟩

theorem witness_InvariantStatesAlwaysStep : (atZero [1, 2]).Inv :=
  witness_StepKeepsTheInvariant.1.1

/-- A RUNNING state of the host's, and one a step on. -/
theorem witness_ReachableStatesFetchInRange :
    Reachable (State.construct [0x0000000A00000000#64, 0x10#64]) ∧
    Reachable (after (State.construct [0x0000000A00000000#64, 0x10#64])) ∧
    (after (State.construct [0x0000000A00000000#64, 0x10#64])).stateField = 0#2 :=
  ⟨.construct _ _ (by decide) (by decide),
   .step _ _ (.construct [0x0000000A00000000#64, 0x10#64] _ (by decide) (by decide)) rfl,
   by decide⟩

/-! #### Memory, values, transactions -/

/-- A defined and an undefined cell, at the ends of the array. -/
theorem witness_MemReadGivesTheValueOrADraw :
    (0 < (atZero [3]).memMax ∧ (atZero [3]).slotAt 0 = some ⟨3#32, true⟩) ∧
    (65535 < (atZero [3]).memMax ∧ (atZero [3]).isDefined 65535 = false) := by decide

theorem witness_MemWriteWritesOneCellOrNothing :
    ((0 : Int) ≤ 0 ∧ (0 : Int) < ((atZero [3]).memMax : Int)) ∧
    ((0 : Int) ≤ 65535 ∧ (65535 : Int) < ((atZero [3]).memMax : Int)) ∧
    ((-1 : Int) < 0 ∨ ((atZero [3]).memMax : Int) ≤ -1) ∧
    ((65536 : Int) < 0 ∨ ((atZero [3]).memMax : Int) ≤ 65536) := by decide

theorem witness_ReadAfterWrite : 0 < (atZero [3]).memMax ∧ 65535 < (atZero [3]).memMax := by decide

/-- Cell 1 is dead: it holds 4 in one state and 5 in the other. -/
theorem witness_DeadAndUndefinedContentsAreInvisible :
    State.AgreeOnLive { atZero [3, 4] with sp := 0 } { atZero [3, 5] with sp := 0 } := by
  refine ⟨rfl, rfl, rfl, rfl, rfl, rfl, rfl, rfl, rfl, ?_⟩
  intro a _ h
  have h : (a : Int) ≤ 0 := h
  obtain rfl : a = 0 := by omega
  exact ⟨rfl, fun _ => rfl⟩

theorem witness_DupThenPopRestoresLiveCells :
    (atZero [8]).AtInstruction ∧ 0 ≤ (atZero [8]).sp ∧
    (atZero [8]).sp + 1 < ((atZero [8]).memMax : Int) ∧ (atZero [8]).ip + 1 < (atZero [8]).len ∧
    (atZero [8]).isDefined 0 = true := by
  decide

theorem witness_DivisionRoundsTowardZero :
    (cellMin ≤ cellMin ∧ cellMin ≤ cellMax ∧ cellMin ≤ -1 ∧ (-1 : Int) ≤ cellMax ∧ (-1 : Int) ≠ 0) ∧
    (cellMin ≤ -7 ∧ (-7 : Int) ≤ cellMax ∧ cellMin ≤ 2 ∧ (2 : Int) ≤ cellMax ∧ (2 : Int) ≠ 0 ∧
      (-7 : Int) * 2 ≤ 0) ∧ (0 : Int) ≤ (-7) * (-2) := by decide

/-- The state that RUN leaves after at most `n` steps. -/
def afterRun (n : Nat) (s : State) : State :=
  match runLoop n s with
  | .next t => t
  | .fault _ => s
  | .refused _ => s

theorem witness_RunStopsInTerminalStates :
    State.reset.stateField ≠ 0#2 ∧ State.reset.stateField = 1#2 ∧
    (after (start 0 0x0000000000000001#64 [])).stateField = 2#2 ∧
    ((atZero [1]).stateField = 0#2 ∧ step (atZero [1]) = .next (after (atZero [1]))) ∧
    runLoop 1 (atZero [1]) = .next (afterRun 1 (atZero [1])) :=
  ⟨by decide, by decide, by decide, ⟨by decide, rfl⟩, rfl⟩

/-- W1: LOADC 10; LOADC 5; ADD. -/
theorem witness_JumpFreeProgramsRunExactlyLenSteps :
    let words : List InstrWord := [0x0000000A00000000#64, 0x0000000500000000#64, 0x1#64]
    let t := afterRun 3 (State.construct words)
    lengthInRange words = true ∧ 1 ≤ Config.memMaxDefault ∧ (∀ w ∈ words, ∀ i, decode w = .ok i → ¬ IsJump i) ∧
    runLoop words.length (State.construct words) = .next t ∧ t.stateField ≠ 2#2 ∧
    t.stateField = 1#2 ∧ t.stack.find 0 = some ⟨15#32, true⟩ := by
  refine ⟨by decide, by decide, ?_, rfl, by decide, by decide, by decide⟩
  intro w hw i hd
  simp only [List.mem_cons, List.not_mem_nil, or_false] at hw
  rcases hw with rfl | rfl | rfl <;> cases hd <;> exact id

theorem witness_InspectionReadsWithoutChange :
    ((0 : Int) ≤ 0 ∧ (0 : Int) < (State.reset.memMax : Int)) ∧
    ((0 : Int) ≤ 65535 ∧ (65535 : Int) < (State.reset.memMax : Int)) ∧
    (0 < (atZero [3]).memMax ∧ (atZero [3]).slotAt 0 = some ⟨3#32, true⟩) := by decide

/-- MAX, MAX + 1 and -MIN. -/
theorem witness_DecimalArgumentsReadBack :
    ((2147483647 : Nat) : Int) ≤ cellMax ∧ cellMax < ((2147483648 : Nat) : Int) ∧
    cellMin ≤ -((2147483648 : Nat) : Int) := by decide

end Sys2Proof.Tests
end

section
/-! The reset values of 10_state.md R35: the STATUS fields and the `defined` bits of a constructed
machine, beside the register lemmas of Laws/State.lean, and the statement about them. -/

namespace Sys2Proof.Machine

/-! ### STATUS after `construct` -/

/-- Only the empty program leaves the block HALTED (70_reset_and_hazards.md R403). -/
@[simp] theorem State.construct_stateField (words : List InstrWord) (n : Nat) :
    (State.construct words n).stateField =
      if words = [] then RunState.halted.code else RunState.running.code := by
  have hfield : (State.construct words n).stateField =
      if words.length = 0 then RunState.halted.code else RunState.running.code :=
    packStatus_state _ _ _
  simpa only [List.length_eq_zero_iff] using hfield

@[simp] theorem State.construct_reservedField (words : List InstrWord) (n : Nat) :
    (State.construct words n).reservedField = 0#2 := packStatus_reserved _ _ _

@[simp] theorem State.construct_fcode (words : List InstrWord) (n : Nat) :
    (State.construct words n).fcode = 0#4 := packStatus_fcode _ _ _

@[simp] theorem State.construct_fop (words : List InstrWord) (n : Nat) :
    (State.construct words n).fop = 0#8 := packStatus_fop _ _ _

/-! ### The stack array after `construct` -/

@[simp] theorem State.construct_slotAt (words : List InstrWord) (n a : Nat) :
    (State.construct words n).slotAt a = none := Memory.find_nil a

@[simp] theorem State.construct_isDefined (words : List InstrWord) (n a : Nat) :
    (State.construct words n).isDefined a = false := by
  simp [State.isDefined]

end Sys2Proof.Machine

namespace Sys2Proof.Proofs

open Sys2Proof.Machine

/-- Settles O34: one lemma for each row of R35's table. -/
theorem constructGivesTheResetValues : Obligations.ConstructGivesTheResetValues := by
  intro words memMax s
  have hstate : s.stateField = if words = [] then 1#2 else 0#2 :=
    State.construct_stateField words memMax
  have hdefined : ∀ a : Nat, s.isDefined a = false := State.construct_isDefined words memMax
  exact ⟨State.construct_sp _ _, State.construct_hp _ _, State.construct_ip _ _, hstate,
    State.construct_reservedField _ _, State.construct_fcode _ _, State.construct_fop _ _,
    State.construct_faultIp _ _, hdefined, State.construct_prog _ _, State.construct_len _ _,
    State.construct_memMax _ _, State.construct_memMax _ Config.memMaxDefault⟩

end Sys2Proof.Proofs
end

section
/-! Decoding and encoding (30_encoding.md R71, R75): the fields of a word as arithmetic on its
number, when `decode` accepts, and the statement about the well-formed words. -/

namespace Sys2Proof

/-! ### The fields of a word -/

theorem opcField_toNat (w : InstrWord) : (opcField w).toNat = w.toNat % 256 := by
  simp [opcField]

theorem rsvField_toNat (w : InstrWord) :
    (rsvField w).toNat = w.toNat / 256 % 16777216 := by
  simp [rsvField, Nat.shiftRight_eq_div_pow]

/-- ARG reaches to the top of the word, so no bit above it has to be cut off. -/
theorem argField_toNat (w : InstrWord) : (argField w).toNat = w.toNat / 4294967296 := by
  have hhigh : w.toNat / 4294967296 < 4294967296 := by omega
  simpa [argField, Nat.shiftRight_eq_div_pow] using hhigh

theorem rsvField_eq_zero_iff (w : InstrWord) :
    rsvField w = 0#24 ↔ w.toNat / 256 % 16777216 = 0 := by
  rw [← BitVec.toNat_inj, rsvField_toNat, BitVec.toNat_zero]

theorem argField_eq_zero_iff (w : InstrWord) :
    argField w = 0#32 ↔ w.toNat / 4294967296 = 0 := by
  rw [← BitVec.toNat_inj, argField_toNat, BitVec.toNat_zero]

/-! ### What the decoder accepts -/

theorem takesArg_eq_false_iff (opc : Nat) :
    takesArg opc = false ↔ opc ∉ [0, 19, 20, 22, 23, 24, 26] := by
  simp [takesArg, and_assoc]

theorem instrOf_eq_none (opc : Nat) (arg : Int) (h : 26 < opc) : instrOf opc arg = none := by
  obtain ⟨k, rfl⟩ := Nat.exists_eq_add_of_le h
  rw [Nat.add_comm]
  rfl

/-- The rows of R72's table are the opcodes up to 26, and each of them is an instruction. -/
theorem exists_instrOf_eq_some_iff (opc : Nat) (arg : Int) :
    (∃ i, instrOf opc arg = some i) ↔ opc ≤ 26 := by
  constructor
  · rintro ⟨i, hi⟩
    by_contra hopc
    simp [instrOf_eq_none opc arg (not_le.mp hopc)] at hi
  · intro hopc
    interval_cases opc <;> exact ⟨_, rfl⟩

/-- `decode` accepts when the opcode has a row and both tests on the other fields pass. -/
theorem decode_eq_ok_iff (w : InstrWord) (i : Instr) :
    decode w = .ok i ↔
      instrOf (opcField w).toNat (argField w).toInt = some i ∧ rsvField w = 0#24 ∧
      (takesArg (opcField w).toNat = false → argField w = 0#32) := by
  unfold decode
  cases instrOf (opcField w).toNat (argField w).toInt with
  | none => simp
  | some j =>
    dsimp only
    split_ifs with hrsv harg
    · simp [hrsv]
    · simp [harg]
    · have hpass : rsvField w = 0#24 ∧
          (takesArg (opcField w).toNat = false → argField w = 0#32) := by
        simpa using And.intro hrsv harg
      simp only [eq_true hpass, and_true, Except.ok.injEq, Option.some.injEq]

/-- `decode` accepts a word by the three tests of R75. -/
theorem exists_decode_eq_ok_iff (w : InstrWord) :
    (∃ i, decode w = .ok i) ↔
      (opcField w).toNat ≤ 26 ∧ rsvField w = 0#24 ∧
      (takesArg (opcField w).toNat = false → argField w = 0#32) := by
  simp only [decode_eq_ok_iff, exists_and_right, exists_instrOf_eq_some_iff]

end Sys2Proof

namespace Sys2Proof.Proofs

open Sys2Proof.Statements

/-- Settles O29: the decoder's three tests are R75's, field by field on the word's number. -/
theorem decoderAcceptsExactlyWellFormedWords :
    Obligations.DecoderAcceptsExactlyWellFormedWords := by
  intro w
  rw [exists_decode_eq_ok_iff, rsvField_eq_zero_iff, argField_eq_zero_iff, takesArg_eq_false_iff,
    opcField_toNat, WordIsWellFormed]

end Sys2Proof.Proofs
end

section
/-! One STEP (40_dispatch.md R100): the gate, the two ways a RUNNING block answers, and what the
post-check and the status update leave (R107, R109); with them the statements about a step outside
RUNNING and about a step that does not fault. -/

namespace Sys2Proof.Machine

/-! ### The gate (40_dispatch.md R112) -/

theorem step_of_not_running {s : State} (h : s.stateField ≠ RunState.running.code) :
    step s = .next s :=
  if_neg (mt s.isRunning_iff.mp h)

theorem transact_step_of_next {s t : State} (h : step s = .next t) :
    transact .step s = .next (t, .status t.status) := by
  simp [transact, h]

/-! ### A step of a RUNNING block -/

/-- The fetched word decides: its instruction runs, or it is malformed. -/
theorem step_next_iff_of_running {s t : State} (hrun : s.stateField = RunState.running.code) :
    step s = .next t ↔ ∃ w, fetch s = some w ∧
      ((∃ i, decode w = .ok i ∧ exec i s = .next t) ∨
       ((∃ e, decode w = .error e) ∧ t = unsupported w s)) := by
  have hgate : s.isRunning = true := s.isRunning_iff.mpr hrun
  cases hfetch : fetch s with
  | none => simp [step, hgate, hfetch]
  | some w => cases hdecode : decode w <;> simp [step, hgate, hfetch, hdecode, eq_comm]

@[simp] theorem unsupported_stateField (w : InstrWord) (s : State) :
    (unsupported w s).stateField = RunState.faulted.code :=
  faultEntry_stateField _ _ _ _

/-! ### The fields after the status update (40_dispatch.md R109) -/

@[simp] theorem statusUpdate_sp (s : State) : (statusUpdate s).sp = s.sp := rfl
@[simp] theorem statusUpdate_hp (s : State) : (statusUpdate s).hp = s.hp := rfl
@[simp] theorem statusUpdate_ip (s : State) : (statusUpdate s).ip = s.ip := rfl
@[simp] theorem statusUpdate_len (s : State) : (statusUpdate s).len = s.len := rfl
@[simp] theorem statusUpdate_faultIp (s : State) : (statusUpdate s).faultIp = s.faultIp := rfl
@[simp] theorem statusUpdate_fcode (s : State) : (statusUpdate s).fcode = s.fcode :=
  State.setRunState_fcode _ _
@[simp] theorem statusUpdate_fop (s : State) : (statusUpdate s).fop = s.fop :=
  State.setRunState_fop _ _
@[simp] theorem statusUpdate_stateField (s : State) :
    (statusUpdate s).stateField =
      if s.ip = s.len then RunState.halted.code else RunState.running.code := by
  rw [statusUpdate, State.setRunState_stateField, apply_ite RunState.code]

/-! ### Passing the post-check (40_dispatch.md R107) -/

/-- The state `s` that a complete effect leaves passes the post-check. -/
structure State.PassesPostCheck (s : State) : Prop where
  sp_lt : s.sp < (s.memMax : Int)
  hp_lt : s.hp < (s.memMax : Int)
  ip_nonneg : 0 ≤ s.ip
  ip_le_len : s.ip ≤ s.len

theorem finish_of_unfaulted {opc : BitVec 8} {i : Int} {s : State}
    (h : (finish opc i s).stateField ≠ RunState.faulted.code) :
    s.PassesPostCheck ∧ finish opc i s = statusUpdate s := by
  rcases finish_cases opc i s with ⟨-, hfault⟩ | ⟨-, -, -, hfault⟩ | ⟨hsp, hhp, h0, hlen, hpass⟩
  · exact absurd (hfault ▸ faultEntry_stateField _ _ _ _) h
  · exact absurd (hfault ▸ faultEntry_stateField _ _ _ _) h
  · exact ⟨⟨hsp, hhp, h0, hlen⟩, hpass⟩

/-! ### What a complete effect keeps -/

theorem State.SameOutside.memMax_eq {s u : State} (h : s.SameOutside u) : u.memMax = s.memMax :=
  (congrArg State.memMax h :)

theorem State.SameOutside.faultIp_eq {s u : State} (h : s.SameOutside u) :
    u.faultIp = s.faultIp :=
  (congrArg State.faultIp h :)

theorem State.SameOutside.fcode_eq {s u : State} (h : s.SameOutside u) : u.fcode = s.fcode :=
  (congrArg State.fcode h :)

theorem State.SameOutside.fop_eq {s u : State} (h : s.SameOutside u) : u.fop = s.fop :=
  (congrArg State.fop h :)

/-- The sequencer's increment of `ip` is one of the changes that `SameOutside` allows. -/
theorem State.SameOutside.of_setIp {s u : State} {v : Int} (h : (s.setIp v).SameOutside u) :
    s.SameOutside u := h

/-! ### Steps that do not fault -/

/-- An instruction that does not fault has completed its effect, and the state its effect leaves
has passed the post-check. -/
theorem exec_next_of_unfaulted {i : Instr} {s t : State} (h : exec i s = .next t)
    (ht : t.stateField ≠ RunState.faulted.code) :
    ∃ u, s.SameOutside u ∧ u.PassesPostCheck ∧ t = statusUpdate u := by
  rw [exec_eq_runInstr] at h
  rcases runInstr_next.mp h with ⟨u, heff, rfl⟩ | ⟨c, u, -, rfl⟩
  · obtain ⟨hpass, hfinish⟩ := finish_of_unfaulted ht
    exact ⟨u, (effectOf_done heff).of_setIp, hpass, hfinish⟩
  · exact absurd (faultEntry_stateField _ _ _ _) ht

/-- The same of a step: a malformed word always faults. -/
theorem step_next_of_unfaulted {s t : State} (hrun : s.stateField = RunState.running.code)
    (h : step s = .next t) (ht : t.stateField ≠ RunState.faulted.code) :
    ∃ u, s.SameOutside u ∧ u.PassesPostCheck ∧ t = statusUpdate u := by
  obtain ⟨w, -, ⟨i, -, hexec⟩ | ⟨-, rfl⟩⟩ := (step_next_iff_of_running hrun).mp h
  · exact exec_next_of_unfaulted hexec ht
  · exact absurd (unsupported_stateField w s) ht

end Sys2Proof.Machine

namespace Sys2Proof.Proofs

open Sys2Proof.Machine

/-- Settles O21: the gate lets no state but RUNNING through. -/
theorem stepOutsideRunningChangesNothing : Obligations.StepOutsideRunningChangesNothing := by
  intro s hstate
  have hstep : step s = .next s := step_of_not_running hstate
  exact ⟨hstep, transact_step_of_next hstep⟩

/-- Settles O22: the step ends with the status update of a state `u` that passed the post-check,
and the effect that led to `u` left MEMMAX, FCODE, FOP and FAULT_IP alone. -/
theorem unfaultedStepSetsStateByIp : Obligations.UnfaultedStepSetsStateByIp := by
  intro s t hrun hstep ht
  obtain ⟨u, hsame, hpass, rfl⟩ := step_next_of_unfaulted hrun hstep ht
  have hsp : u.sp < (s.memMax : Int) := hsame.memMax_eq ▸ hpass.sp_lt
  have hhp : u.hp < (s.memMax : Int) := hsame.memMax_eq ▸ hpass.hp_lt
  have hstate : (statusUpdate u).stateField = if u.ip = u.len then 1#2 else 0#2 :=
    statusUpdate_stateField u
  exact ⟨hsp, hhp, hpass.ip_nonneg, hpass.ip_le_len, hstate, by simp [hsame.fcode_eq],
    by simp [hsame.fop_eq], by simp [hsame.faultIp_eq]⟩

end Sys2Proof.Proofs
end

section
/-! The ALU templates (40_dispatch.md R104 to R111): how an instruction ends when its effect
completes and when a pre-check fails, in the words of the statements; then BINOP and UNOP as the
rules `BinaryRule` and `UnaryRule`; and the statements about ADD, SUB, MUL and NEG. -/

namespace Sys2Proof.Machine

open Sys2Proof.Statements

/-! ### The OPC byte -/

/-- The OPC number of an instruction can be read off its word (30_encoding.md R71). -/
theorem opcOf_eq_ofNat {i : Instr} {opc : Nat} (hopc : (encode i).toNat = opc) :
    opcOf i = BitVec.ofNat 8 opc := by
  have hbyte : opcField (encode i) = opcOf i := (Laws.OpcByte.fields_of_word _ _).1
  rw [← hbyte]
  apply BitVec.eq_of_toNat_eq
  rw [opcField_toNat, BitVec.toNat_ofNat, hopc]

/-! ### A complete effect -/

theorem State.SameOutside.hp_eq {s u : State} (h : s.SameOutside u) : u.hp = s.hp :=
  (congrArg State.hp h :)

theorem State.SameOutside.heap_eq {s u : State} (h : s.SameOutside u) : u.heap = s.heap :=
  (congrArg State.heap h :)

theorem State.SameOutside.prog_eq {s u : State} (h : s.SameOutside u) : u.prog = s.prog :=
  (congrArg State.prog h :)

theorem State.SameOutside.len_eq {s u : State} (h : s.SameOutside u) : u.len = s.len :=
  (congrArg State.len h :)

/-- The status update of a state that only an effect separates from `s` is what R109 asks for. -/
theorem completed_statusUpdate {s u : State} (h : s.SameOutside u) :
    Completed s (statusUpdate u) u.sp u.ip u.draws := by
  have hstate : (statusUpdate u).stateField = if u.ip = s.len then 1#2 else 0#2 :=
    h.len_eq ▸ statusUpdate_stateField u
  exact ⟨rfl, rfl, h.hp_eq, h.heap_eq, h.prog_eq, h.memMax_eq, h.faultIp_eq,
    (statusUpdate_fcode u).trans h.fcode_eq, (statusUpdate_fop u).trans h.fop_eq,
    State.setRunState_reservedField _ _, hstate, rfl⟩

/-- An instruction whose effect is complete in `u` completes with the registers and cells of `u`,
when `u` passes the post-check. -/
theorem exec_completes {i : Instr} {s u : State}
    (heff : effectOf i (s.setIp (s.ip + 1)) = .done u) (hpass : u.PassesPostCheck) :
    ∃ t, exec i s = .next t ∧ Completed s t u.sp u.ip u.draws ∧ CellsKept u t := by
  refine ⟨statusUpdate u, ?_, completed_statusUpdate (effectOf_done heff).of_setIp, fun _ => rfl⟩
  rw [exec_eq_runInstr, runInstr_of_done heff,
    finish_of_inRange _ _ hpass.sp_lt hpass.hp_lt hpass.ip_nonneg hpass.ip_le_len]

/-- With `sp` no higher and `ip` one further the post-check finds nothing (40_dispatch.md R107). -/
theorem State.AtInstruction.passesPostCheck {s u : State} (hat : s.AtInstruction)
    (hsame : s.SameOutside u) (hsp : u.sp ≤ s.sp) (hip : u.ip = s.ip + 1) :
    u.PassesPostCheck := by
  obtain ⟨-, hmax, hhp, h0, hlen⟩ := hat
  constructor
  · rw [hsame.memMax_eq]; omega
  · rwa [hsame.hp_eq, hsame.memMax_eq]
  · omega
  · rw [hsame.len_eq]; omega

/-! ### A failed pre-check -/

/-- Fault entry from a state that is `s` but for the DRAWs taken and the sequencer's increment. -/
theorem faulted_faultEntry {c : Cause} {opc : BitVec 8} {s u : State}
    (h : (s.setIp (s.ip + 1)).SameButDraws u) :
    Faulted c.code opc s (faultEntry c opc s.ip u) s.sp (s.ip + 1) u.draws := by
  rw [h]
  exact ⟨rfl, rfl, rfl, rfl, rfl, rfl, rfl, faultEntry_fcode _ _ _ _, faultEntry_fop _ _ _ _,
    faultEntry_reservedField _ _ _ _, faultEntry_stateField _ _ _ _, rfl⟩

/-- An instruction whose pre-check fails faults before it has any effect
(40_dispatch.md R104). -/
theorem preFaults_of_raise {i : Instr} {s u : State} {c : Cause}
    (heff : effectOf i (s.setIp (s.ip + 1)) = .raise c u) :
    PreFaults i c.code (opcOf i) s u.draws := by
  have hsame : (s.setIp (s.ip + 1)).SameButDraws u := effectOf_raise heff
  refine ⟨faultEntry c (opcOf i) s.ip u, ?_, faulted_faultEntry hsame, fun b => ?_⟩
  · rw [exec_eq_runInstr, runInstr_of_raise heff]
  · rw [hsame]; rfl

/-! ### One cell written -/

/-- MemWrite inside the array writes one cell (20_memory.md R54). -/
theorem cellWritten_memWrite {a : Int} (v : Cell) {s : State} (ha : inArray s.memMax a = true) :
    CellWritten s (memWrite a v s) a v := by
  intro b
  simp only [memWrite_slotAt, ha, true_and]

/-- An effect that ends with a MemWrite of a cell `a` of the array, on a state `u` that still holds
the cells of `s`: the instruction completes, and cell `a` alone is written. -/
theorem exec_completes_memWrite {i : Instr} {s u : State} {a : Int} {v : Cell}
    (heff : effectOf i (s.setIp (s.ip + 1)) = .done (memWrite a v u)) (hat : s.AtInstruction)
    (hsp : u.sp ≤ s.sp) (hip : u.ip = s.ip + 1) (hcells : CellsKept s u)
    (ha : 0 ≤ a ∧ a < (s.memMax : Int)) :
    ∃ t, exec i s = .next t ∧ Completed s t u.sp (s.ip + 1) u.draws ∧ CellWritten s t a v := by
  have hsame : s.SameOutside (memWrite a v u) := (effectOf_done heff).of_setIp
  have hpass : (memWrite a v u).PassesPostCheck :=
    hat.passesPostCheck hsame (by simpa using hsp) (by simpa using hip)
  have hmax : u.memMax = s.memMax := (memWrite_memMax a v u).symm.trans hsame.memMax_eq
  have hin : inArray u.memMax a = true := (inArray_iff _ _).2 (hmax ▸ ha)
  obtain ⟨t, hexec, hcompleted, hkept⟩ := exec_completes heff hpass
  refine ⟨t, hexec, by simpa [hip] using hcompleted, fun b => ?_⟩
  rw [hkept b, cellWritten_memWrite v hin b, hcells b]

/-! ### The templates -/

/-- BINOP at depth whose value check passes (40_dispatch.md R110): the result replaces the deeper
operand, and the post-check passes because `sp` falls. -/
theorem exec_binop_completes {i : Instr} {need : Int}
    {check : Int → Int → State → Effect → Effect} {f : Int → Int → Int} {s : State}
    (heff : effectOf i = binop need check f) (hat : s.AtInstruction) (hneed : need ≤ s.sp)
    (hsp : 1 ≤ s.sp)
    (hcheck : ∀ u rest, check (s.readValue (s.sp - 1)).toInt
      ((s.afterRead (s.sp - 1)).readValue s.sp).toInt u rest = rest) :
    ∃ t, exec i s = .next t ∧
      Completed s t (s.sp - 1) (s.ip + 1) ((s.afterRead (s.sp - 1)).afterRead s.sp).draws ∧
      CellWritten s t (s.sp - 1) (BitVec.ofInt 32 (f (s.readValue (s.sp - 1)).toInt
        ((s.afterRead (s.sp - 1)).readValue s.sp).toInt)) := by
  have ⟨_, hmax, _⟩ := hat
  have hdone := binop_inside check f (s := s.setIp (s.ip + 1)) hneed hsp hmax
  simp only [State.setIp_sp, State.setIp_afterRead, State.setIp_readValue, hcheck, cellOf_eq,
    ← heff] at hdone
  simpa using exec_completes_memWrite hdone hat (by simp) (by simp) (fun b => by simp)
    ⟨by omega, by omega⟩

/-- UNOP on a stack that is not empty (40_dispatch.md R111): the result replaces the top cell. -/
theorem exec_unop_completes {i : Instr} {f : Int → Int} {s : State}
    (heff : effectOf i = unop f) (hat : s.AtInstruction) (hsp : 0 ≤ s.sp) :
    ∃ t, exec i s = .next t ∧ Completed s t s.sp (s.ip + 1) (s.afterRead s.sp).draws ∧
      CellWritten s t s.sp (BitVec.ofInt 32 (f (s.readValue s.sp).toInt)) := by
  have ⟨_, hmax, _⟩ := hat
  have hdone := unop_inside f (s := s.setIp (s.ip + 1)) hsp hmax
  simp only [State.setIp_sp, State.setIp_afterRead, State.setIp_readValue, cellOf_eq,
    ← heff] at hdone
  simpa using exec_completes_memWrite hdone hat (by simp) (by simp) (fun b => by simp)
    ⟨hsp, hmax⟩

/-- A BINOP without a value check obeys the rule of binary instructions, for any description `f`
of its function `g`. -/
theorem binaryRule_of_binop {i : Instr} {opc : Nat} {need : Int} {f g : Int → Int → Int}
    (hopc : (encode i).toNat = opc) (heff : effectOf i = binop need noCheck g)
    (hneed : 1 ≤ need) (hfun : ∀ a b, g a b = f a b) : BinaryRule i opc need f := by
  refine ⟨hopc, fun s hat => ⟨fun hlow => ?_, fun hdepth => ?_⟩⟩
  · have hraise : effectOf i (s.setIp (s.ip + 1)) = .raise .stackUnderflow (s.setIp (s.ip + 1)) :=
      heff ▸ binop_underflow noCheck g hlow
    exact opcOf_eq_ofNat hopc ▸ preFaults_of_raise hraise
  · have hcompletes := exec_binop_completes heff hat hdepth (by omega) (noCheck_eq _ _)
    rwa [hfun] at hcompletes

/-- A UNOP obeys the rule of unary instructions, for any description `f` of its function `g`. -/
theorem unaryRule_of_unop {i : Instr} {opc : Nat} {f g : Int → Int}
    (hopc : (encode i).toNat = opc) (heff : effectOf i = unop g) (hfun : ∀ v, g v = f v) :
    UnaryRule i opc f := by
  refine ⟨hopc, fun s hat => ⟨fun hlow => ?_, fun hdepth => ?_⟩⟩
  · have hraise : effectOf i (s.setIp (s.ip + 1)) = .raise .stackUnderflow (s.setIp (s.ip + 1)) :=
      heff ▸ unop_underflow g hlow
    exact opcOf_eq_ofNat hopc ▸ preFaults_of_raise hraise
  · have hcompletes := exec_unop_completes heff hat hdepth
    rwa [hfun] at hcompletes

end Sys2Proof.Machine

namespace Sys2Proof.Proofs

open Sys2Proof.Machine Sys2Proof.Statements

/-- Settles O1: the three are BINOPs of depth 1 on the exact sum, difference and product. -/
theorem addSubMulReplaceOperandsByWrappedResult :
    Obligations.AddSubMulReplaceOperandsByWrappedResult := by
  have hadd : BinaryRule .add 1 1 (fun a b => a + b) :=
    binaryRule_of_binop (by decide) rfl (le_refl 1) (fun _ _ => rfl)
  have hsub : BinaryRule .sub 2 1 (fun a b => a - b) :=
    binaryRule_of_binop (by decide) rfl (le_refl 1) (fun _ _ => rfl)
  have hmul : BinaryRule .mul 3 1 (fun a b => a * b) :=
    binaryRule_of_binop (by decide) rfl (le_refl 1) (fun _ _ => rfl)
  exact ⟨hadd, hsub, hmul⟩

/-- Settles O3: NEG is the UNOP of `0 - v`. -/
theorem negReplacesTopByWrappedNegation : Obligations.NegReplacesTopByWrappedNegation :=
  unaryRule_of_unop (by decide) rfl Int.zero_sub

end Sys2Proof.Proofs
end

section
/-! The logic and comparison functions (42_logic_compare.md R170 to R180): each as the plain case
distinction on integers that the rule states, and the statements about AND, OR, XOR, the six
comparisons and NOT. -/

namespace Sys2Proof.Machine

/-! ### The integer of a relation (42_logic_compare.md R170) -/

theorem bit_decide (p : Prop) [Decidable p] : bit (decide p) = if p then 1 else 0 := by
  by_cases h : p <;> simp [bit, h]

/-! ### Truth values -/

theorem logicAnd_eq (a b : Int) : logicAnd a b = if a ≠ 0 ∧ b ≠ 0 then 1 else 0 := by
  rw [logicAnd, ← Bool.decide_and, bit_decide]

theorem logicOr_eq (a b : Int) : logicOr a b = if a ≠ 0 ∨ b ≠ 0 then 1 else 0 := by
  rw [logicOr, ← Bool.decide_or, bit_decide]

/-- Two integers have one truth value when both are zero or neither is. -/
theorem truth_eq_truth_iff (a b : Int) : truth a = truth b ↔ (a = 0 ↔ b = 0) := by
  by_cases ha : a = 0 <;> by_cases hb : b = 0 <;> simp [truth, ha, hb]

theorem logicXor_eq (a b : Int) : logicXor a b = if (a = 0 ↔ b = 0) then 0 else 1 := by
  simp only [logicXor, bit_decide, ne_eq, truth_eq_truth_iff, ite_not]

theorem logicNot_eq (v : Int) : logicNot v = if v = 0 then 1 else 0 := ite_not _ _ _

/-! ### Signed comparisons -/

theorem relEq_eq (a b : Int) : relEq a b = if a = b then 1 else 0 := bit_decide _

theorem relNeq_eq (a b : Int) : relNeq a b = if a = b then 0 else 1 :=
  (bit_decide _).trans (ite_not _ _ _)

theorem relLe_eq (a b : Int) : relLe a b = if a < b then 1 else 0 := bit_decide _

theorem relLeq_eq (a b : Int) : relLeq a b = if a ≤ b then 1 else 0 := bit_decide _

theorem relGr_eq (a b : Int) : relGr a b = if b < a then 1 else 0 := bit_decide _

theorem relGeq_eq (a b : Int) : relGeq a b = if b ≤ a then 1 else 0 := bit_decide _

end Sys2Proof.Machine

namespace Sys2Proof.Proofs

open Sys2Proof.Machine Sys2Proof.Statements

/-- Settles O4: both are BINOPs of depth 1, so neither operand is skipped. -/
theorem andOrActOnTruthValues : Obligations.AndOrActOnTruthValues :=
  ⟨binaryRule_of_binop (by decide) rfl (le_refl 1) logicAnd_eq,
    binaryRule_of_binop (by decide) rfl (le_refl 1) logicOr_eq⟩

/-- Settles O5: XOR is a BINOP of depth 2, one more live cell than its operands need. -/
theorem xorNeedsThreeLiveCells : Obligations.XorNeedsThreeLiveCells :=
  binaryRule_of_binop (by decide) rfl one_le_two logicXor_eq

/-- Settles O6: the six are BINOPs of depth 1 on the relation of the deeper operand to the top. -/
theorem comparisonsUseSignedOrder : Obligations.ComparisonsUseSignedOrder := by
  have heq : BinaryRule .eq 9 1 (fun a b => if a = b then 1 else 0) :=
    binaryRule_of_binop (by decide) rfl (le_refl 1) relEq_eq
  have hneq : BinaryRule .neq 10 1 (fun a b => if a = b then 0 else 1) :=
    binaryRule_of_binop (by decide) rfl (le_refl 1) relNeq_eq
  have hle : BinaryRule .le 11 1 (fun a b => if a < b then 1 else 0) :=
    binaryRule_of_binop (by decide) rfl (le_refl 1) relLe_eq
  have hleq : BinaryRule .leq 12 1 (fun a b => if a ≤ b then 1 else 0) :=
    binaryRule_of_binop (by decide) rfl (le_refl 1) relLeq_eq
  have hgr : BinaryRule .gr 13 1 (fun a b => if b < a then 1 else 0) :=
    binaryRule_of_binop (by decide) rfl (le_refl 1) relGr_eq
  have hgeq : BinaryRule .geq 14 1 (fun a b => if b ≤ a then 1 else 0) :=
    binaryRule_of_binop (by decide) rfl (le_refl 1) relGeq_eq
  exact ⟨heq, hneq, hle, hleq, hgr, hgeq⟩

/-- Settles O7: NOT is the UNOP that maps zero to 1 and every other integer to 0. -/
theorem notIsLogicalNegation : Obligations.NotIsLogicalNegation :=
  unaryRule_of_unop (by decide) rfl logicNot_eq

end Sys2Proof.Proofs
end

section
/-! The stack and memory instructions (43_stack_memory.md): the word of an instruction with an
argument, the MemoryOverflow of the post-check, what a push and ALLOC do in the words of the
statements; and the statements about LOADC, STOREA, POP and ALLOC. -/

namespace Sys2Proof.Machine

open Sys2Proof.Statements

/-! ### The argument (30_encoding.md R71, R73) -/

theorem wordWithArg_of_arg {i : Instr} {v : Int} (harg : i.arg = some v) :
    WordWithArg i (opcOf i).toNat v := by
  have hopc : (opcOf i).toNat < 2 ^ 8 := (opcOf i).isLt
  have hvalue : (BitVec.ofInt 32 v).toNat = (v % 4294967296).toNat := BitVec.toNat_ofInt v
  have hword : encode i = BitVec.ofInt 32 v ++ 0#24 ++ opcOf i := by rw [encode, harg]; rfl
  rw [WordWithArg, hword, BitVec.toNat_append, ← Nat.shiftLeft_add_eq_or_of_lt hopc,
    BitVec.toNat_append, hvalue, BitVec.toNat_zero, Nat.or_zero, Nat.shiftLeft_eq,
    Nat.shiftLeft_eq]
  omega

theorem argInRange_iff (v : Int) : argInRange v = true ↔ -2147483648 ≤ v ∧ v ≤ 2147483647 := by
  simp [argInRange]

/-- An encodable argument is the signed value of the cell it becomes. -/
theorem toInt_ofInt_of_argInRange {v : Int} (hv : argInRange v = true) :
    (BitVec.ofInt 32 v).toInt = v := by
  obtain ⟨hmin, hmax⟩ := (argInRange_iff v).1 hv
  exact BitVec.toInt_ofInt_eq_self (by decide) hmin (by omega)

/-! ### The post-check after an effect that moves `sp` (40_dispatch.md R107, R108) -/

/-- With `sp` inside the array and `ip` one further the post-check finds nothing. -/
theorem State.AtInstruction.passesPostCheck_of_sp_lt {s u : State} (hat : s.AtInstruction)
    (hsame : s.SameOutside u) (hsp : u.sp < (s.memMax : Int)) (hip : u.ip = s.ip + 1) :
    u.PassesPostCheck := by
  obtain ⟨-, -, hhp, h0, hlen⟩ := hat
  constructor
  · rwa [hsame.memMax_eq]
  · rwa [hsame.hp_eq, hsame.memMax_eq]
  · omega
  · rw [hsame.len_eq]; omega

theorem finish_of_overflow (opc : BitVec 8) (i : Int) {s : State} (h : (s.memMax : Int) ≤ s.sp) :
    finish opc i s = faultEntry .memoryOverflow opc i s :=
  if_pos ((overCapacity_iff s).2 (Or.inl h))

/-- Fault entry from a state that only an effect separates from `s` keeps that effect. -/
theorem faulted_faultEntry_of_sameOutside {c : Cause} {opc : BitVec 8} {s u : State}
    (h : s.SameOutside u) :
    Faulted c.code opc s (faultEntry c opc s.ip u) u.sp u.ip u.draws :=
  ⟨rfl, rfl, h.hp_eq, h.heap_eq, h.prog_eq, h.memMax_eq, rfl, faultEntry_fcode _ _ _ _,
    faultEntry_fop _ _ _ _, faultEntry_reservedField _ _ _ _, faultEntry_stateField _ _ _ _, rfl⟩

/-- An instruction whose complete effect leaves `sp` past the array raises MemoryOverflow, and the
effect stays. -/
theorem exec_overflows {i : Instr} {s u : State}
    (heff : effectOf i (s.setIp (s.ip + 1)) = .done u) (hmax : (s.memMax : Int) ≤ u.sp) :
    ∃ t, exec i s = .next t ∧ Faulted 4#4 (opcOf i) s t u.sp u.ip u.draws ∧ CellsKept u t := by
  have hsame : s.SameOutside u := (effectOf_done heff).of_setIp
  refine ⟨faultEntry .memoryOverflow (opcOf i) s.ip u, ?_,
    faulted_faultEntry_of_sameOutside hsame, fun _ => rfl⟩
  rw [exec_eq_runInstr, runInstr_of_done heff, finish_of_overflow _ _ (hsame.memMax_eq ▸ hmax)]

/-! ### A push (00_scope.md R12, 20_memory.md R54) -/

theorem push_cellWritten (v : Cell) {s : State} (hlow : -1 ≤ s.sp)
    (hroom : s.sp + 1 < (s.memMax : Int)) : CellWritten s (push v s) (s.sp + 1) v := by
  have hin : inArray s.memMax (s.sp + 1) = true := (inArray_iff _ _).2 ⟨by omega, hroom⟩
  intro b
  simp only [push_slotAt, hin, true_and]

/-- At full capacity the write of a push is discarded. -/
theorem push_cellsKept (v : Cell) {s : State} (hfull : s.sp + 1 = (s.memMax : Int)) :
    CellsKept s (push v s) := by
  intro b
  rw [push_slotAt, if_neg]
  rw [inArray_iff]
  omega

/-- An effect that pushes `v` after reads that left the cells alone obeys the rule of pushes. -/
theorem pushRule_of_push {i : Instr} {s u : State} {v : Cell}
    (heff : effectOf i (s.setIp (s.ip + 1)) = .done (push v u)) (hat : s.AtInstruction)
    (hreads : (s.setIp (s.ip + 1)).SameButDraws u) : PushRule i (opcOf i) s v u.draws := by
  have hsp : u.sp = s.sp := (congrArg State.sp hreads :)
  have hip : u.ip = s.ip + 1 := (congrArg State.ip hreads :)
  have hmax : u.memMax = s.memMax := (congrArg State.memMax hreads :)
  have hcells : CellsKept s u := fun b => (congrArg (State.slotAt · b) hreads :)
  have hsame : s.SameOutside (push v u) := (effectOf_done heff).of_setIp
  constructor
  · intro hroom
    have hpass : (push v u).PassesPostCheck :=
      hat.passesPostCheck_of_sp_lt hsame (by simpa [hsp] using hroom) (by simpa using hip)
    obtain ⟨t, hexec, hcompleted, hkept⟩ := exec_completes heff hpass
    refine ⟨t, hexec, by simpa [hsp, hip] using hcompleted, fun b => ?_⟩
    have hlow : -1 ≤ u.sp := hsp ▸ hat.1
    rw [hkept b, push_cellWritten v hlow (by rwa [hsp, hmax]) b, hcells b, hsp]
  · intro hfull
    obtain ⟨t, hexec, hfaulted, hkept⟩ := exec_overflows heff (by rw [push_sp, hsp, hfull])
    refine ⟨t, hexec, by simpa [hsp, hip] using hfaulted, fun b => ?_⟩
    rw [hkept b, push_cellsKept v (by rwa [hsp, hmax]) b, hcells b]

/-! ### STOREA and POP (43_stack_memory.md R204, R205) -/

theorem storeaEffect_underflow (a : Int) {s : State} (hlow : s.sp < 0) :
    storeaEffect a s = .raise .stackUnderflow s := needDepth_fail _ hlow

theorem storeaEffect_outside {a : Int} {s : State} (hdepth : 0 ≤ s.sp) (ha : s.sp < a ∨ a < 0) :
    storeaEffect a s = .raise .illegalStackMemoryAccess s :=
  (needDepth_pass _ hdepth).trans (needAddress_fail s _ ha)

/-- The top cell is read, and its value written to cell `a`. -/
theorem storeaEffect_inside {a : Int} {s : State} (ha0 : 0 ≤ a) (ha : a ≤ s.sp)
    (hmax : s.sp < (s.memMax : Int)) :
    storeaEffect a s = .done (memWrite a (s.readValue s.sp) (s.afterRead s.sp)) := by
  have hdepth : 0 ≤ s.sp := ha0.trans ha
  have hin : inArray s.memMax s.sp = true := (inArray_iff _ _).2 ⟨hdepth, hmax⟩
  rw [storeaEffect, needDepth_pass _ hdepth, needAddress_pass s _ ha0 ha, readCell_inside s _ hin]

theorem popEffect_underflow {s : State} (hlow : s.sp < 0) :
    popEffect s = .raise .stackUnderflow s := needDepth_fail _ hlow

theorem popEffect_of_depth {s : State} (hdepth : 0 ≤ s.sp) :
    popEffect s = .done (s.setSp (s.sp - 1)) := needDepth_pass _ hdepth

/-! ### ALLOC (43_stack_memory.md R207) -/

theorem allocEffect_underflow {k : Int} {s : State} (hlow : s.sp + k < -1) :
    allocEffect k s = .raise .stackUnderflow s := if_pos hlow

/-- ALLOC clears the `defined` bits up to the end of the array and moves `sp`, also past it. -/
theorem allocEffect_of_depth {k : Int} {s : State} (hdepth : -1 ≤ s.sp + k) :
    allocEffect k s = .done ((s.setStack (s.stack.undefine (s.sp + 1)
      (min (s.sp + k) ((s.memMax : Int) - 1)))).setSp (s.sp + k)) :=
  if_neg (not_lt.2 hdepth)

/-- Clearing the `defined` bits from `sp + 1` to `sp + k`, as far as the array goes, exposes just
those cells. -/
theorem cellsExposed_undefine (s : State) (k : Int) :
    CellsExposed s (s.setStack (s.stack.undefine (s.sp + 1)
      (min (s.sp + k) ((s.memMax : Int) - 1)))) k := by
  intro b
  have hrange : (s.sp + 1 ≤ (b : Int) ∧ (b : Int) ≤ min (s.sp + k) ((s.memMax : Int) - 1)) ↔
      s.sp < (b : Int) ∧ (b : Int) ≤ s.sp + k ∧ b < s.memMax := by omega
  simp only [State.isDefined, State.setStack_slotAt, Memory.find_undefine, hrange]
  split
  · cases hslot : s.stack.find b <;> simp [State.slotAt, hslot]
  · rfl

/-- What ALLOC exposes stays exposed when the cells are kept. -/
theorem cellsExposed_of_cellsKept {s u t : State} {k : Int} (hexposed : CellsExposed s u k)
    (hkept : CellsKept u t) : CellsExposed s t k := by
  intro b
  have hb := hexposed b
  simp only [State.isDefined, hkept b] at hb ⊢
  exact hb

end Sys2Proof.Machine

namespace Sys2Proof.Proofs

open Sys2Proof.Machine Sys2Proof.Statements

/-- Settles O8: LOADC is a push that reads nothing. -/
theorem loadcPushesItsConstant : Obligations.LoadcPushesItsConstant := by
  intro c hc
  refine ⟨wordWithArg_of_arg rfl, toInt_ofInt_of_argInRange hc, fun s hat => ?_⟩
  have heff : effectOf (.loadc c) (s.setIp (s.ip + 1)) =
      .done (push (BitVec.ofInt 32 c) (s.setIp (s.ip + 1))) :=
    congrArg (fun v => Effect.done (push v _)) (cellOf_eq c)
  exact pushRule_of_push (u := s.setIp (s.ip + 1)) heff hat (State.sameButDraws_refl _)

/-- Settles O12: the two pre-checks in their order, then one write of the value read. -/
theorem storeaCopiesTopIntoTheNamedCell : Obligations.StoreaCopiesTopIntoTheNamedCell := by
  intro a _
  refine ⟨wordWithArg_of_arg rfl, fun s hat => ⟨fun hlow => ?_, fun hdepth ha => ?_,
    fun _ ha0 ha => ?_⟩⟩
  · exact preFaults_of_raise (i := .storea a) (storeaEffect_underflow a hlow)
  · exact preFaults_of_raise (i := .storea a) (storeaEffect_outside hdepth ha)
  · have ⟨_, hmax, _⟩ := hat
    have hdone := storeaEffect_inside (s := s.setIp (s.ip + 1)) ha0 ha hmax
    simpa using exec_completes_memWrite (i := .storea a) hdone hat (by simp) (by simp)
      (fun b => by simp) ⟨ha0, by omega⟩

/-- Settles O13: POP writes `sp` and no cell. -/
theorem popLowersSpAndKeepsCells : Obligations.PopLowersSpAndKeepsCells := by
  refine ⟨by decide, fun s hat => ⟨fun hlow => ?_, fun hdepth => ?_⟩⟩
  · exact preFaults_of_raise (i := .pop) (popEffect_underflow hlow)
  · have hdone : effectOf .pop (s.setIp (s.ip + 1)) = _ := popEffect_of_depth hdepth
    exact exec_completes hdone
      (hat.passesPostCheck (effectOf_done hdone).of_setIp (by simp) (by simp))

/-- Settles O15: above the depth check ALLOC always has its effect; the post-check then decides
between completing and MemoryOverflow. -/
theorem allocMovesSpAndExposesUndefinedCells :
    Obligations.AllocMovesSpAndExposesUndefinedCells := by
  intro k _
  refine ⟨wordWithArg_of_arg rfl, fun s hat => ⟨fun hlow => ?_, fun hdepth hroom => ?_,
    fun hover => ?_⟩⟩
  · exact preFaults_of_raise (i := .alloc k) (allocEffect_underflow hlow)
  · have hdone : effectOf (.alloc k) (s.setIp (s.ip + 1)) = _ := allocEffect_of_depth hdepth
    obtain ⟨t, hexec, hcompleted, hkept⟩ := exec_completes hdone
      (hat.passesPostCheck_of_sp_lt (effectOf_done hdone).of_setIp hroom rfl)
    exact ⟨t, hexec, hcompleted, cellsExposed_of_cellsKept (cellsExposed_undefine s k) hkept⟩
  · have hdepth : -1 ≤ s.sp + k := by omega
    have hdone : effectOf (.alloc k) (s.setIp (s.ip + 1)) = _ := allocEffect_of_depth hdepth
    obtain ⟨t, hexec, hfaulted, hkept⟩ := exec_overflows hdone hover
    exact ⟨t, hexec, hfaulted, cellsExposed_of_cellsKept (cellsExposed_undefine s k) hkept⟩

end Sys2Proof.Proofs
end

section
/-! The control-transfer instructions (44_control.md): the pre-checks and the pop that JUMPZ and
JUMPI share, the post-check after a jump that may leave the program; and the statements about JUMP,
JUMPZ and JUMPI. -/

namespace Sys2Proof.Machine

open Sys2Proof.Statements

/-! ### The post-check after a jump (40_dispatch.md R107, R108) -/

theorem finish_of_ip_outside (opc : BitVec 8) (i : Int) {s : State} (hsp : s.sp < (s.memMax : Int))
    (hhp : s.hp < (s.memMax : Int)) (hip : s.ip < 0 ∨ s.len < s.ip) :
    finish opc i s = faultEntry .illegalInstructionAccess opc i s := by
  rcases finish_cases opc i s with ⟨hover, -⟩ | ⟨-, -, -, hfinish⟩ | ⟨-, -, h0, hlen, -⟩
  · omega
  · exact hfinish
  · omega

/-- A transfer of control to `ip` by instruction `i`, with `sp` as given and `draws` DRAWs taken in
all: inside `[0, LEN]` the instruction completes, outside IllegalInstructionAccess is raised and the
transfer is kept. No cell changes either way. -/
def TransferRule (i : Instr) (s : State) (sp ip : Int) (draws : Nat) : Prop :=
  (0 ≤ ip → ip ≤ s.len → ∃ t, exec i s = .next t ∧ Completed s t sp ip draws ∧ CellsKept s t) ∧
  (ip < 0 ∨ s.len < ip →
    ∃ t, exec i s = .next t ∧ Faulted 5#4 (opcOf i) s t sp ip draws ∧ CellsKept s t)

/-- After a complete effect that does not raise `sp` only the test of `ip` is open in the
post-check. -/
theorem transferRule_of_done {i : Instr} {s u : State}
    (heff : effectOf i (s.setIp (s.ip + 1)) = .done u) (hat : s.AtInstruction)
    (hsp : u.sp ≤ s.sp) (hcells : CellsKept s u) : TransferRule i s u.sp u.ip u.draws := by
  obtain ⟨-, hmax, hhp, -, -⟩ := hat
  have hsame : s.SameOutside u := (effectOf_done heff).of_setIp
  have hsp' : u.sp < (u.memMax : Int) := by rw [hsame.memMax_eq]; omega
  have hhp' : u.hp < (u.memMax : Int) := by rwa [hsame.hp_eq, hsame.memMax_eq]
  constructor
  · intro h0 hlen
    obtain ⟨t, hexec, hcompleted, hkept⟩ :=
      exec_completes heff ⟨hsp', hhp', h0, hsame.len_eq ▸ hlen⟩
    exact ⟨t, hexec, hcompleted, fun b => (hkept b).trans (hcells b)⟩
  · intro hip
    refine ⟨faultEntry .illegalInstructionAccess (opcOf i) s.ip u, ?_,
      faulted_faultEntry_of_sameOutside hsame, hcells⟩
    rw [exec_eq_runInstr, runInstr_of_done heff,
      finish_of_ip_outside _ _ hsp' hhp' (hsame.len_eq ▸ hip)]

/-! ### The pre-checks of JUMPZ and JUMPI (44_control.md R241, R242) -/

/-- The depth is checked after the target. -/
theorem needTarget_needDepth_underflow {t : Int} {s : State} (rest : Effect) (ht : t < s.len)
    (hlow : s.sp < 0) : needTarget t s (needDepth 0 s rest) = .raise .stackUnderflow s :=
  (needTarget_pass _ ht).trans (needDepth_fail _ hlow)

/-- Past both checks the top cell is read. -/
theorem needTarget_needDepth_readCell {t : Int} {s : State} (rest : Cell → State → Effect)
    (ht : t < s.len) (hdepth : 0 ≤ s.sp) (hmax : s.sp < (s.memMax : Int)) :
    needTarget t s (needDepth 0 s (readCell s.sp s rest)) =
      rest (s.readValue s.sp) (s.afterRead s.sp) := by
  have hin : inArray s.memMax s.sp = true := (inArray_iff _ _).2 ⟨hdepth, hmax⟩
  rw [needTarget_pass _ ht, needDepth_pass _ hdepth, readCell_inside s _ hin]

/-! ### The pop and the jump -/

/-- The state `s` after its top cell has been read and popped, with `ip` set. -/
def State.popAndJump (s : State) (ip : Int) : State :=
  ((s.afterRead s.sp).setIp ip).setSp (s.sp - 1)

@[simp] theorem State.popAndJump_sp (s : State) (ip : Int) : (s.popAndJump ip).sp = s.sp - 1 := rfl
@[simp] theorem State.popAndJump_ip (s : State) (ip : Int) : (s.popAndJump ip).ip = ip := rfl
@[simp] theorem State.popAndJump_draws (s : State) (ip : Int) :
    (s.popAndJump ip).draws = (s.afterRead s.sp).draws := rfl
@[simp] theorem State.popAndJump_slotAt (s : State) (ip : Int) (b : Nat) :
    (s.popAndJump ip).slotAt b = s.slotAt b :=
  s.afterRead_slotAt s.sp b

/-- A condition that is not 0 leaves `ip` where the sequencer has put it. -/
theorem jumpzEffect_inside {t : Int} {s : State} (ht : t < s.len) (hdepth : 0 ≤ s.sp)
    (hmax : s.sp < (s.memMax : Int)) :
    jumpzEffect t s = .done (s.popAndJump (if (s.readValue s.sp).toInt = 0 then t else s.ip)) := by
  have hstay : (s.afterRead s.sp).setIp s.ip = s.afterRead s.sp := by
    rw [State.setIp, ← s.afterRead_ip s.sp]
  rw [jumpzEffect, needTarget_needDepth_readCell _ ht hdepth hmax, State.popAndJump,
    State.afterRead_sp, apply_ite (State.setIp _), hstay]

theorem jumpiEffect_inside {t : Int} {s : State} (ht : t < s.len) (hdepth : 0 ≤ s.sp)
    (hmax : s.sp < (s.memMax : Int)) :
    jumpiEffect t s = .done (s.popAndJump (t + (s.readValue s.sp).toInt)) := by
  rw [jumpiEffect, needTarget_needDepth_readCell _ ht hdepth hmax, State.popAndJump,
    State.afterRead_sp]

/-- An instruction whose effect pops the top cell and sets `ip` obeys the rule of transfers. -/
theorem transferRule_of_popAndJump {i : Instr} {s : State} {ip : Int}
    (heff : effectOf i (s.setIp (s.ip + 1)) = .done ((s.setIp (s.ip + 1)).popAndJump ip))
    (hat : s.AtInstruction) : TransferRule i s (s.sp - 1) ip (s.afterRead s.sp).draws := by
  simpa using transferRule_of_done heff hat (by simp) (fun b => by simp)

theorem jump_transferRule {t : Int} {s : State} (hat : s.AtInstruction) (ht : t < s.len) :
    TransferRule (.jump t) s s.sp t s.draws := by
  have hdone : effectOf (.jump t) (s.setIp (s.ip + 1)) = .done ((s.setIp (s.ip + 1)).setIp t) :=
    needTarget_pass _ ht
  exact transferRule_of_done hdone hat (le_refl s.sp) (fun _ => rfl)

theorem jumpz_transferRule {t : Int} {s : State} (hat : s.AtInstruction) (ht : t < s.len)
    (hdepth : 0 ≤ s.sp) :
    TransferRule (.jumpz t) s (s.sp - 1)
      (if (s.readValue s.sp).toInt = 0 then t else s.ip + 1) (s.afterRead s.sp).draws := by
  have ⟨_, hmax, _⟩ := hat
  exact transferRule_of_popAndJump (i := .jumpz t)
    (jumpzEffect_inside (s := s.setIp (s.ip + 1)) ht hdepth hmax) hat

theorem jumpi_transferRule {t : Int} {s : State} (hat : s.AtInstruction) (ht : t < s.len)
    (hdepth : 0 ≤ s.sp) :
    TransferRule (.jumpi t) s (s.sp - 1) (t + (s.readValue s.sp).toInt)
      (s.afterRead s.sp).draws := by
  have ⟨_, hmax, _⟩ := hat
  exact transferRule_of_popAndJump (i := .jumpi t)
    (jumpiEffect_inside (s := s.setIp (s.ip + 1)) ht hdepth hmax) hat

end Sys2Proof.Machine

namespace Sys2Proof.Proofs

open Sys2Proof.Machine Sys2Proof.Statements

/-- Settles O16: below LEN the target is written to `ip`, and the post-check then refuses it when it
is negative. -/
theorem jumpSetsIpToItsTarget : Obligations.JumpSetsIpToItsTarget := by
  intro t _
  refine ⟨wordWithArg_of_arg rfl, fun s hat => ⟨fun hpast => ?_, fun hneg => ?_,
    fun h0 ht => ?_⟩⟩
  · exact preFaults_of_raise (i := .jump t) (needTarget_fail _ hpast)
  · have ⟨_, _, _, _, _⟩ := hat
    exact (jump_transferRule hat (by omega)).2 (Or.inl hneg)
  · exact (jump_transferRule hat ht).1 h0 ht.le

/-- Settles O17: the two pre-checks in their order; then the condition chooses the `ip` of the one
transfer, `ip + 1` never leaving `[0, LEN]`. -/
theorem jumpzPopsAndJumpsOnZero : Obligations.JumpzPopsAndJumpsOnZero := by
  intro t _
  refine ⟨wordWithArg_of_arg rfl, fun s hat => ⟨fun hpast => ?_, fun ht hlow => ?_,
    fun ht hdepth hc => ?_, fun h0 ht hdepth hc => ?_, fun hneg hdepth hc => ?_⟩⟩
  · exact preFaults_of_raise (i := .jumpz t) (needTarget_fail _ hpast)
  · exact preFaults_of_raise (i := .jumpz t) (needTarget_needDepth_underflow _ ht hlow)
  · have ⟨_, _, _, _, _⟩ := hat
    have hrule := jumpz_transferRule hat ht hdepth
    rw [if_neg hc] at hrule
    exact hrule.1 (by omega) (by omega)
  · have hrule := jumpz_transferRule hat ht hdepth
    rw [if_pos hc] at hrule
    exact hrule.1 h0 ht.le
  · have ⟨_, _, _, _, _⟩ := hat
    have hrule := jumpz_transferRule hat (t := t) (by omega) hdepth
    rw [if_pos hc] at hrule
    exact hrule.2 (Or.inl hneg)

/-- Settles O18: past the two pre-checks JUMPI is the transfer to the exact sum. -/
theorem jumpiJumpsToTheExactSum : Obligations.JumpiJumpsToTheExactSum := by
  intro t _
  refine ⟨wordWithArg_of_arg rfl, fun s hat => ⟨fun hpast => ?_, fun ht hlow => ?_,
    fun ht hdepth => ?_, fun ht hdepth => ?_⟩⟩
  · exact preFaults_of_raise (i := .jumpi t) (needTarget_fail _ hpast)
  · exact preFaults_of_raise (i := .jumpi t) (needTarget_needDepth_underflow _ ht hlow)
  · exact (jumpi_transferRule hat ht hdepth).1
  · exact (jumpi_transferRule hat ht hdepth).2

end Sys2Proof.Proofs
end

section
/-! UnsupportedOperation (60_exceptions.md R306): what a fetch finds, the words the decoder rejects,
and the fault entry of a malformed word; with them the statement about a malformed word. -/

namespace Sys2Proof.Machine

open Sys2Proof.Statements

/-- Phase 1 finds the word that the statements say the block fetches (40_dispatch.md R101). -/
theorem fetch_of_fetches {s : State} {w : InstrWord} (h : Fetches s w) : fetch s = some w := by
  obtain ⟨-, h0, hword⟩ := h
  exact (if_pos h0).trans hword

/-- The raw OPC byte that FOP receives, 27 to 255 included (60_exceptions.md R306). -/
theorem opcField_eq_ofNat (w : InstrWord) : opcField w = BitVec.ofNat 8 (w.toNat % 256) := by
  rw [← opcField_toNat, BitVec.ofNat_toNat, BitVec.setWidth_eq]

/-- The decoder rejects the words that R75 calls malformed. -/
theorem exists_decode_eq_error_iff (w : InstrWord) :
    (∃ e, decode w = .error e) ↔ ¬ WordIsWellFormed w := by
  rw [← Proofs.decoderAcceptsExactlyWellFormedWords w]
  cases decode w <;> simp

/-- A malformed word takes fault entry from a state in which only `ip` has moved. -/
theorem faulted_unsupported (w : InstrWord) (s : State) :
    Faulted 6#4 (BitVec.ofNat 8 (w.toNat % 256)) s (unsupported w s) s.sp (s.ip + 1) s.draws :=
  opcField_eq_ofNat w ▸ faulted_faultEntry (c := .unsupportedOperation) (State.sameButDraws_refl _)

theorem unsupported_cellsKept (w : InstrWord) (s : State) : CellsKept s (unsupported w s) :=
  fun _ => rfl

end Sys2Proof.Machine

namespace Sys2Proof.Proofs

open Sys2Proof.Machine Sys2Proof.Statements

/-- Settles O20: the decoder rejects a malformed word, so the step is that word's fault entry. -/
theorem malformedWordRaisesUnsupportedOperation :
    Obligations.MalformedWordRaisesUnsupportedOperation := by
  intro s w hfetches hmalformed
  have hrun : s.stateField = RunState.running.code := hfetches.1
  have hreject : ∃ e, decode w = .error e := (exists_decode_eq_error_iff w).2 hmalformed
  have hstep : step s = .next (unsupported w s) :=
    (step_next_iff_of_running hrun).2
      ⟨w, fetch_of_fetches hfetches, Or.inr ⟨hreject, rfl⟩⟩
  exact ⟨unsupported w s, hstep, faulted_unsupported w s, unsupported_cellsKept w s⟩

end Sys2Proof.Proofs
end

section
/-! The round trips of 30_encoding.md R71 to R77: a word is its three fields, the table's rows
number the instructions as `opcOf` does, and the statements that decoding and encoding invert each other,
that the opcode table selects what the decoder decides, and that the spec's vectors decode. -/

namespace Sys2Proof

/-! ### A word is its three fields (30_encoding.md R71) -/

/-- ARG of a word built by concatenation. -/
theorem argField_of_word (arg : BitVec 32) (opc : BitVec 8) :
    argField (arg ++ 0#24 ++ opc) = arg :=
  (Machine.extract_append_high (arg ++ 0#24) opc 24 32).trans
    ((Machine.extract_append_high arg 0#24 0 32).trans (by ext; simp))

/-- Without reserved bits a word is the concatenation that `encode` builds. -/
theorem word_of_fields {w : InstrWord} (hrsv : rsvField w = 0#24) :
    argField w ++ 0#24 ++ opcField w = w := by
  have hopc : (opcField w).toNat < 2 ^ 8 := (opcField w).isLt
  have hzero := (rsvField_eq_zero_iff w).1 hrsv
  apply BitVec.eq_of_toNat_eq
  rw [BitVec.toNat_append, ← Nat.shiftLeft_add_eq_or_of_lt hopc, BitVec.toNat_append,
    BitVec.toNat_zero, Nat.or_zero, Nat.shiftLeft_eq, Nat.shiftLeft_eq, opcField_toNat,
    argField_toNat]
  omega

/-! ### The numbers of the rows (30_encoding.md R72, R74) -/

/-- Row `opcOf i` of the table is the instruction `i`, whatever stands for a missing argument. -/
theorem instrOf_opcOf (i : Instr) : instrOf (opcOf i).toNat (i.arg.getD 0) = some i := by
  cases i <;> rfl

theorem takesArg_opcOf (i : Instr) : takesArg (opcOf i).toNat = i.arg.isSome := by
  cases i <;> rfl

/-- The instruction that a row gives has the row's number, and the argument if the row carries
one. -/
theorem opcOf_of_instrOf {opc : Nat} {v : Int} {i : Instr} (h : instrOf opc v = some i) :
    (opcOf i).toNat = opc ∧ i.arg = if takesArg opc then some v else none := by
  have hrow : opc ≤ 26 := (exists_instrOf_eq_some_iff opc v).1 ⟨i, h⟩
  interval_cases opc <;> cases h <;> exact ⟨rfl, rfl⟩

/-! ### Well-formed arguments (30_encoding.md R73) -/

/-- The argument of a well-formed instruction survives the cell it is encoded in. -/
theorem Instr.toInt_ofInt_arg {i : Instr} (h : i.wellFormed = true) :
    (BitVec.ofInt 32 (i.arg.getD 0)).toInt = i.arg.getD 0 := by
  unfold Instr.wellFormed at h
  cases harg : i.arg with
  | none => rfl
  | some v =>
    rw [harg] at h
    exact Machine.toInt_ofInt_of_argInRange h

theorem argInRange_toInt (c : Cell) : argInRange c.toInt = true := by
  have hlow : -2147483648 ≤ c.toInt := BitVec.le_toInt c
  have hhigh : c.toInt < 2147483648 := BitVec.toInt_lt
  exact (Machine.argInRange_iff _).2 ⟨hlow, by omega⟩

/-! ### What a decoded word holds -/

/-- The OPC byte of a decoded word is the number of its instruction. -/
theorem opcOf_of_decode {w : InstrWord} {i : Instr} (h : decode w = .ok i) :
    opcOf i = opcField w := by
  obtain ⟨hinstr, -, -⟩ := (decode_eq_ok_iff w i).1 h
  exact BitVec.eq_of_toNat_eq (opcOf_of_instrOf hinstr).1

/-- The encoded argument of a decoded word's instruction is ARG, also where there is no argument
and ARG must be 0. -/
theorem ofInt_arg_of_decode {w : InstrWord} {i : Instr} (h : decode w = .ok i) :
    BitVec.ofInt 32 (i.arg.getD 0) = argField w := by
  obtain ⟨hinstr, -, hzero⟩ := (decode_eq_ok_iff w i).1 h
  rw [(opcOf_of_instrOf hinstr).2]
  split
  · exact BitVec.ofInt_toInt
  · rename_i hplain
    exact (hzero (Bool.eq_false_iff.2 hplain)).symm

theorem wellFormed_of_decode {w : InstrWord} {i : Instr} (h : decode w = .ok i) :
    i.wellFormed = true := by
  obtain ⟨hinstr, -, -⟩ := (decode_eq_ok_iff w i).1 h
  rw [Instr.wellFormed, (opcOf_of_instrOf hinstr).2]
  cases takesArg (opcField w).toNat
  · rfl
  · exact argInRange_toInt _

/-! ### The opcode table (30_encoding.md R77) -/

/-- The row that the table has for an opcode number. -/
def rowOf (opc : Nat) : TableRow := if takesArg opc then argRow opc else plainRow opc

theorem mem_opcodeTable_iff (r : TableRow) : r ∈ opcodeTable ↔ r.opc ≤ 26 ∧ r = rowOf r.opc := by
  have hrows : ∀ r ∈ opcodeTable, r.opc ≤ 26 ∧ r = rowOf r.opc := by decide
  have hnumbers : ∀ n : Nat, n < 27 → rowOf n ∈ opcodeTable := by decide
  refine ⟨hrows r, fun ⟨hopc, hrow⟩ => ?_⟩
  rw [hrow]
  exact hnumbers _ (by omega)

/-- The row of an argument-carrying opcode fixes OPC and RSV. -/
theorem argRow_selects (w : InstrWord) {n : Nat} (hn : n ≤ 26) :
    w &&& (argRow n).mask = (argRow n).pattern ↔ (opcField w).toNat = n ∧ rsvField w = 0#24 := by
  have hlow : w &&& (argRow n).mask = BitVec.ofNat 64 (w.toNat % 2 ^ 32) := by
    apply BitVec.eq_of_toNat_eq
    rw [BitVec.toNat_and, BitVec.toNat_ofNat]
    exact (Nat.and_two_pow_sub_one_eq_mod w.toNat 32).trans (by omega)
  rw [hlow, rsvField_eq_zero_iff, opcField_toNat, argRow, ← BitVec.toNat_inj, BitVec.toNat_ofNat,
    BitVec.toNat_ofNat]
  omega

/-- The row of an opcode without an argument fixes the whole word. -/
theorem plainRow_selects (w : InstrWord) {n : Nat} (hn : n ≤ 26) :
    w &&& (plainRow n).mask = (plainRow n).pattern ↔
      (opcField w).toNat = n ∧ rsvField w = 0#24 ∧ argField w = 0#32 := by
  have hall : w &&& (plainRow n).mask = w := BitVec.and_allOnes
  rw [hall, rsvField_eq_zero_iff, argField_eq_zero_iff, opcField_toNat, plainRow,
    ← BitVec.toNat_inj, BitVec.toNat_ofNat]
  omega

/-- A row selects the words with its OPC that pass the other two tests of R75. -/
theorem rowOf_selects (w : InstrWord) {n : Nat} (hn : n ≤ 26) :
    w &&& (rowOf n).mask = (rowOf n).pattern ↔
      (opcField w).toNat = n ∧ rsvField w = 0#24 ∧ (takesArg n = false → argField w = 0#32) := by
  unfold rowOf
  cases harg : takesArg n with
  | true => simpa using argRow_selects w hn
  | false => simpa using plainRow_selects w hn

/-- The decoder gives an instruction with number `n` by the three tests of R75. -/
theorem exists_decode_opcOf_iff (w : InstrWord) (n : Nat) :
    (∃ i, decode w = .ok i ∧ (opcOf i).toNat = n) ↔
      n ≤ 26 ∧ (opcField w).toNat = n ∧ rsvField w = 0#24 ∧
        (takesArg n = false → argField w = 0#32) := by
  constructor
  · rintro ⟨i, hdecode, rfl⟩
    obtain ⟨hopc, htests⟩ := (exists_decode_eq_ok_iff w).1 ⟨i, hdecode⟩
    rw [opcOf_of_decode hdecode]
    exact ⟨hopc, rfl, htests⟩
  · rintro ⟨hopc, rfl, htests⟩
    obtain ⟨i, hdecode⟩ := (exists_decode_eq_ok_iff w).2 ⟨hopc, htests⟩
    exact ⟨i, hdecode, by rw [opcOf_of_decode hdecode]⟩

end Sys2Proof

namespace Sys2Proof.Proofs

/-- Settles O30: the decoder finds the number, no reserved bit, and the argument, which its range
keeps from wrapping. -/
theorem decodeInvertsEncode : Obligations.DecodeInvertsEncode := by
  intro i hwf
  obtain ⟨hopc, hrsv⟩ : opcField (encode i) = opcOf i ∧ rsvField (encode i) = 0#24 :=
    Laws.OpcByte.fields_of_word _ _
  have harg : argField (encode i) = BitVec.ofInt 32 (i.arg.getD 0) := argField_of_word _ _
  refine (decode_eq_ok_iff _ _).2 ⟨?_, hrsv, fun hplain => ?_⟩
  · rw [hopc, harg, i.toInt_ofInt_arg hwf, instrOf_opcOf]
  · rw [hopc, takesArg_opcOf, Option.isSome_eq_false_iff, Option.isNone_iff_eq_none] at hplain
    rw [harg, hplain]
    rfl

/-- Settles O31: the three fields of the word are those that `encode` puts together. -/
theorem encodeInvertsDecode : Obligations.EncodeInvertsDecode := by
  intro w i hdecode
  obtain ⟨-, hrsv, -⟩ := (decode_eq_ok_iff w i).1 hdecode
  refine ⟨?_, wellFormed_of_decode hdecode⟩
  rw [encode, ofInt_arg_of_decode hdecode, opcOf_of_decode hdecode, word_of_fields hrsv]

/-- Settles O32: the one row with number `n` makes the tests that the decoder makes. -/
theorem opcodeTableRowsAgreeWithTheDecoder : Obligations.OpcodeTableRowsAgreeWithTheDecoder := by
  intro w n
  rw [exists_decode_opcOf_iff]
  constructor
  · rintro ⟨hn, htests⟩
    have hopc : (rowOf n).opc = n := by unfold rowOf; split <;> rfl
    exact ⟨rowOf n, (mem_opcodeTable_iff _).2 ⟨hopc.symm ▸ hn, by rw [hopc]⟩, hopc,
      (rowOf_selects w hn).2 htests⟩
  · rintro ⟨r, hmem, rfl, hselects⟩
    obtain ⟨hn, hrow⟩ := (mem_opcodeTable_iff r).1 hmem
    rw [hrow] at hselects
    exact ⟨hn, (rowOf_selects w hn).1 hselects⟩

/-- Settles O33: the twelve words are evaluated. -/
theorem specEncodingVectorsDecode : Obligations.SpecEncodingVectorsDecode := by
  refine ⟨?_, ?_, ?_, ?_, ?_, ?_, ?_, ?_, ?_, ?_, ?_, ?_⟩ <;> decide

end Sys2Proof.Proofs
end

section
/-! What an instruction can do, said once for all 27: the causes its pre-checks raise, the forms its
complete effect takes, and where a fault comes from (40_dispatch.md R104 to R108, 60_exceptions.md
R300, R310); with them the statements about faults, about `ip` and about what no step changes. -/

namespace Sys2Proof.Machine

open Sys2Proof.Statements

/-! ### The causes of failed pre-checks (60_exceptions.md R300) -/

/-- The faults that the pre-checks of an instruction raise, in the order of the checks. -/
def preChecks : Instr → List Cause
  | .loadc _ => []
  | .div | .mod => [.stackUnderflow, .divisionByZero]
  | .load | .store | .storea _ => [.stackUnderflow, .illegalStackMemoryAccess]
  | .loada _ => [.illegalStackMemoryAccess]
  | .jump _ => [.illegalInstructionAccess]
  | .jumpz _ | .jumpi _ => [.illegalInstructionAccess, .stackUnderflow]
  | _ => [.stackUnderflow]

/-- Every fault that the execute phase `e` raises is one of `cs`. -/
def Effect.RaisesOnly (cs : List Cause) (e : Effect) : Prop := ∀ c u, e = .raise c u → c ∈ cs

section
variable {cs : List Cause}

theorem raisesOnly_done (u : State) : Effect.RaisesOnly cs (.done u) := nofun

theorem raisesOnly_raise {c : Cause} {u : State} (hc : c ∈ cs) :
    Effect.RaisesOnly cs (.raise c u) := by
  intro d v h
  cases h
  exact hc

theorem raisesOnly_needDepth {n : Int} {s : State} {e : Effect} (hc : .stackUnderflow ∈ cs)
    (he : e.RaisesOnly cs) : (needDepth n s e).RaisesOnly cs := by
  intro c u h
  rcases needDepth_raise h with ⟨-, rfl, -⟩ | ⟨-, h⟩
  · exact hc
  · exact he c u h

theorem raisesOnly_needAddress {a l : Int} {s : State} {e : Effect}
    (hc : .illegalStackMemoryAccess ∈ cs) (he : e.RaisesOnly cs) :
    (needAddress a l s e).RaisesOnly cs := by
  intro c u h
  rcases needAddress_raise h with ⟨-, rfl⟩ | ⟨-, -, h⟩
  · exact hc
  · exact he c u h

theorem raisesOnly_needTarget {t : Int} {s : State} {e : Effect}
    (hc : .illegalInstructionAccess ∈ cs) (he : e.RaisesOnly cs) :
    (needTarget t s e).RaisesOnly cs := by
  intro c u h
  rcases needTarget_raise h with ⟨-, rfl⟩ | ⟨-, h⟩
  · exact hc
  · exact he c u h

theorem raisesOnly_readCell {a : Int} {s : State} {k : Cell → State → Effect}
    (hk : ∀ v u, (k v u).RaisesOnly cs) : (readCell a s k).RaisesOnly cs :=
  fun c u h => hk _ _ c u (readCell_raise h).2

theorem raisesOnly_copyTop (s : State) : (copyTop s).RaisesOnly cs :=
  fun _ _ h => absurd h copyTop_raise

theorem raisesOnly_binop {n : Int} {check : Int → Int → State → Effect → Effect}
    {f : Int → Int → Int} {s : State} (hc : .stackUnderflow ∈ cs)
    (hcheck : ∀ a b u v, (check a b u (.done v)).RaisesOnly cs) :
    (binop n check f s).RaisesOnly cs :=
  raisesOnly_needDepth hc <| raisesOnly_readCell fun _ _ => raisesOnly_readCell fun _ _ =>
    hcheck _ _ _ _

theorem raisesOnly_noCheck (a b : Int) (u v : State) : (noCheck a b u (.done v)).RaisesOnly cs :=
  raisesOnly_done v

theorem raisesOnly_needDivisor (hc : .divisionByZero ∈ cs) (a b : Int) (u v : State) :
    (needDivisor a b u (.done v)).RaisesOnly cs := by
  intro c w h
  obtain ⟨-, rfl⟩ := needDivisor_raise h
  exact hc

theorem raisesOnly_unop {f : Int → Int} {s : State} (hc : .stackUnderflow ∈ cs) :
    (unop f s).RaisesOnly cs :=
  raisesOnly_needDepth hc <| raisesOnly_readCell fun _ _ => raisesOnly_done _

end

/-- An instruction raises no fault but those of its pre-checks. -/
theorem effectOf_raisesOnly (i : Instr) (s : State) : (effectOf i s).RaisesOnly (preChecks i) := by
  have hb : ∀ f : Int → Int → Int, ∀ n, (binop n noCheck f s).RaisesOnly [.stackUnderflow] :=
    fun f n => raisesOnly_binop (by decide) raisesOnly_noCheck
  have hd : ∀ f : Int → Int → Int,
      (binop 1 needDivisor f s).RaisesOnly [.stackUnderflow, .divisionByZero] :=
    fun f => raisesOnly_binop (by decide) (raisesOnly_needDivisor (by decide))
  have hu : ∀ f : Int → Int, (unop f s).RaisesOnly [.stackUnderflow] :=
    fun f => raisesOnly_unop (by decide)
  cases i
  case loadc => exact raisesOnly_done _
  case add | sub | mul | and | or | xor | eq | neq | le | leq | gr | geq => exact hb _ _
  case div | mod => exact hd _
  case not | neg => exact hu _
  case load | store =>
    exact raisesOnly_needDepth (by decide) <| raisesOnly_readCell fun _ _ =>
      raisesOnly_needAddress (by decide) <| raisesOnly_readCell fun _ _ => raisesOnly_done _
  case loada =>
    refine raisesOnly_needAddress (by simp [preChecks]) ?_
    split
    · exact raisesOnly_copyTop s
    · exact raisesOnly_readCell fun _ _ => raisesOnly_done _
  case storea =>
    exact raisesOnly_needDepth (by simp [preChecks]) <|
      raisesOnly_needAddress (by simp [preChecks]) <|
        raisesOnly_readCell fun _ _ => raisesOnly_done _
  case pop => exact raisesOnly_needDepth (by decide) (raisesOnly_done _)
  case jump => exact raisesOnly_needTarget (by simp [preChecks]) (raisesOnly_done _)
  case jumpz | jumpi =>
    exact raisesOnly_needTarget (by simp [preChecks]) <|
      raisesOnly_needDepth (by simp [preChecks]) <|
        raisesOnly_readCell fun _ _ => raisesOnly_done _
  case dup => exact raisesOnly_needDepth (by decide) (raisesOnly_copyTop s)
  case alloc k =>
    change (allocEffect k s).RaisesOnly _
    rcases lt_or_ge (s.sp + k) (-1) with hlow | hdepth
    · rw [allocEffect_underflow hlow]
      exact raisesOnly_raise (by simp [preChecks])
    · rw [allocEffect_of_depth hdepth]
      exact raisesOnly_done _

/-- MemoryOverflow is a fault of the post-check alone (40_dispatch.md R107). -/
theorem memoryOverflow_not_mem_preChecks (i : Instr) : Cause.memoryOverflow ∉ preChecks i := by
  cases i <;> simp [preChecks]

/-- The opcodes that the fault table lists for a cause (60_exceptions.md R300). No instruction
raises UnsupportedOperation. -/
def Cause.RaisedBy : Cause → Nat → Prop
  | .stackUnderflow, opc => opc ∉ [0, 19, 22]
  | .illegalStackMemoryAccess, opc => opc ∈ [17, 18, 19, 20]
  | .divisionByZero, opc => opc ∈ [4, 5]
  | .memoryOverflow, opc => opc ∈ [0, 19, 25, 26]
  | .illegalInstructionAccess, opc => opc ∈ [22, 23, 24]
  | .unsupportedOperation, _ => False

theorem raisedBy_of_mem_preChecks (i : Instr) :
    ∀ c ∈ preChecks i, c.RaisedBy (opcOf i).toNat := by
  cases i <;> simp [preChecks, Cause.RaisedBy, opcOf]

/-! ### The forms of a complete effect -/

/-- `w` is `s` after reads and pops: every cell, MEMMAX and `ip` are kept, and `sp` is not raised,
nor lowered past -1. -/
structure State.Popped (s w : State) : Prop where
  stack_eq : w.stack = s.stack
  memMax_eq : w.memMax = s.memMax
  ip_eq : w.ip = s.ip
  sp_low : min s.sp (-1) ≤ w.sp
  sp_high : w.sp ≤ s.sp

theorem State.popped_refl (s : State) : s.Popped s := ⟨rfl, rfl, rfl, min_le_left _ _, le_refl _⟩

theorem State.Popped.afterRead {s w : State} (h : s.Popped w) (a : Int) :
    s.Popped (w.afterRead a) := by
  obtain ⟨hstack, hmax, hip, hlow, hhigh⟩ := h
  constructor <;> rwa [State.afterRead_eq]

theorem State.Popped.setSp {s w : State} {p : Int} (h : s.Popped w) (hlow : -1 ≤ p)
    (hhigh : p ≤ s.sp) : s.Popped (w.setSp p) :=
  ⟨h.stack_eq, h.memMax_eq, h.ip_eq, (min_le_right _ _).trans hlow, hhigh⟩

/-- A jump that may set `ip` to `ip`: its argument plus the signed value of some cell. -/
def JumpsTo (i : Instr) (ip : Int) : Prop :=
  IsJump i ∧ ∃ t, i.arg = some t ∧ ∃ o : Cell, ip = t + o.toInt

theorem opcOf_of_isJump {i : Instr} (h : IsJump i) : (opcOf i).toNat ∈ [22, 23, 24] := by
  cases i
  case jump | jumpz | jumpi => simp [opcOf]
  all_goals exact False.elim h

/-- The six forms that a complete effect of `i` takes, after reads and pops. -/
inductive EffectForm (i : Instr) (s : State) : State → Prop
  | pop {w : State} (hw : s.Popped w) : EffectForm i s w
  | write {w : State} (a : Int) (v : Cell) (hw : s.Popped w) : EffectForm i s (memWrite a v w)
  | push {w : State} (v : Cell) (hw : s.Popped w) (hopc : (opcOf i).toNat ∈ [0, 19]) :
      EffectForm i s (push v w)
  | copy {w : State} (v : Cell) (hw : s.Popped w) (hopc : (opcOf i).toNat ∈ [19, 25]) :
      EffectForm i s (pushCopy v w)
  | jump {w : State} (ip : Int) (hw : s.Popped w) (hip : JumpsTo i ip) :
      EffectForm i s (w.setIp ip)
  | alloc (k lo hi : Int) (hk : i = .alloc k) (hdepth : -1 ≤ s.sp + k) :
      EffectForm i s ((s.setStack (s.stack.undefine lo hi)).setSp (s.sp + k))

theorem memWrite_setSp (a : Int) (v : Cell) (s : State) (p : Int) :
    memWrite a v (s.setSp p) = (memWrite a v s).setSp p := by
  rw [memWrite, memWrite, apply_ite (State.setSp · p)]
  rfl

theorem effectForm_of_binop {i : Instr} {n : Int} {check : Int → Int → State → Effect → Effect}
    {f : Int → Int → Int} {s u : State} (hcheck : ∀ a b t e, check a b t e = .done u → e = .done u)
    (h : binop n check f s = .done u) : EffectForm i s u := by
  obtain ⟨-, hin, -, rfl⟩ := binop_done hcheck h
  obtain ⟨h0, -⟩ := (inArray_iff _ _).1 hin
  exact .write _ _ (((s.popped_refl.afterRead _).afterRead _).setSp (by omega) (by omega))

theorem effectForm_of_unop {i : Instr} {f : Int → Int} {s u : State} (h : unop f s = .done u) :
    EffectForm i s u := by
  obtain ⟨-, -, rfl⟩ := unop_done h
  exact .write _ _ (s.popped_refl.afterRead _)

/-- Every complete effect takes one of the six forms. -/
theorem effectForm_of_done {i : Instr} {s u : State} (h : effectOf i s = .done u) :
    EffectForm i s u := by
  cases i
  case loadc => cases h; exact .push _ s.popped_refl (by simp [opcOf])
  case add | sub | mul | and | or | xor | eq | neq | le | leq | gr | geq =>
    exact effectForm_of_binop (fun _ _ _ _ h => h) h
  case div | mod =>
    exact effectForm_of_binop (check := needDivisor) (fun _ _ _ _ h => needDivisor_done h) h
  case not | neg => exact effectForm_of_unop h
  case load =>
    obtain ⟨-, h⟩ := needDepth_done h
    obtain ⟨-, h⟩ := readCell_done h
    obtain ⟨-, -, h⟩ := needAddress_done h
    obtain ⟨-, h⟩ := readCell_done h
    cases h
    exact .write _ _ ((s.popped_refl.afterRead _).afterRead _)
  case store =>
    obtain ⟨hdepth, h⟩ := needDepth_done h
    obtain ⟨-, h⟩ := readCell_done h
    obtain ⟨-, -, h⟩ := needAddress_done h
    obtain ⟨-, h⟩ := readCell_done h
    cases h
    rw [← memWrite_setSp]
    exact .write _ _ (((s.popped_refl.afterRead _).afterRead _).setSp
      (by simp only [State.afterRead_sp]; omega) (by simp only [State.afterRead_sp]; omega))
  case loada =>
    obtain ⟨-, -, -, ⟨-, rfl⟩ | ⟨-, rfl⟩⟩ := loadaEffect_done h
    · exact .copy _ (s.popped_refl.afterRead _) (by simp [opcOf])
    · exact .push _ (s.popped_refl.afterRead _) (by simp [opcOf])
  case storea =>
    obtain ⟨-, h⟩ := needDepth_done h
    obtain ⟨-, -, h⟩ := needAddress_done h
    obtain ⟨-, h⟩ := readCell_done h
    cases h
    exact .write _ _ (s.popped_refl.afterRead _)
  case pop =>
    obtain ⟨hdepth, h⟩ := needDepth_done h
    cases h
    exact .pop (s.popped_refl.setSp (by omega) (by omega))
  case jump t =>
    obtain ⟨-, h⟩ := needTarget_done h
    cases h
    exact .jump t s.popped_refl ⟨trivial, t, rfl, 0#32, (Int.add_zero t).symm⟩
  case jumpz t =>
    obtain ⟨-, h⟩ := needTarget_done h
    obtain ⟨hdepth, h⟩ := needDepth_done h
    obtain ⟨-, h⟩ := readCell_done h
    have hpop : s.Popped ((s.afterRead s.sp).setSp ((s.afterRead s.sp).sp - 1)) :=
      (s.popped_refl.afterRead _).setSp (by simp only [State.afterRead_sp]; omega)
        (by simp only [State.afterRead_sp]; omega)
    cases h
    split
    · exact .jump t hpop ⟨trivial, t, rfl, 0#32, (Int.add_zero t).symm⟩
    · exact .pop hpop
  case jumpi t =>
    obtain ⟨-, h⟩ := needTarget_done h
    obtain ⟨hdepth, h⟩ := needDepth_done h
    obtain ⟨-, h⟩ := readCell_done h
    have hpop : s.Popped ((s.afterRead s.sp).setSp ((s.afterRead s.sp).sp - 1)) :=
      (s.popped_refl.afterRead _).setSp (by simp only [State.afterRead_sp]; omega)
        (by simp only [State.afterRead_sp]; omega)
    cases h
    exact .jump _ hpop ⟨trivial, t, rfl, _, rfl⟩
  case dup =>
    obtain ⟨-, h⟩ := needDepth_done h
    obtain ⟨-, rfl⟩ := copyTop_done h
    exact .copy _ (s.popped_refl.afterRead _) (by simp [opcOf])
  case alloc k =>
    change allocEffect k s = _ at h
    rcases lt_or_ge (s.sp + k) (-1) with hlow | hdepth
    · rw [allocEffect_underflow hlow] at h
      cases h
    · rw [allocEffect_of_depth hdepth] at h
      cases h
      exact .alloc k _ _ rfl hdepth

/-! ### What every complete effect does to `ip`, `sp` and the form of the stack array -/

/-- Only a jump writes `ip` (40_dispatch.md R102). -/
theorem EffectForm.ip_cases {i : Instr} {s u : State} (h : EffectForm i s u) :
    u.ip = s.ip ∨ JumpsTo i u.ip := by
  cases h with
  | pop hw => exact .inl hw.ip_eq
  | write a v hw => exact .inl (by simp [hw.ip_eq])
  | push v hw => exact .inl (by simp [hw.ip_eq])
  | copy v hw => exact .inl (by simp [hw.ip_eq])
  | jump ip hw hip => exact .inr hip
  | alloc => exact .inl rfl

/-- `sp` rises by 1 in the pushes, by `k` in ALLOC(k), and in no other instruction. -/
theorem EffectForm.sp_cases {i : Instr} {s u : State} (h : EffectForm i s u) :
    u.sp ≤ s.sp ∨ (u.sp ≤ s.sp + 1 ∧ (opcOf i).toNat ∈ [0, 19, 25]) ∨
      ∃ k, i = .alloc k ∧ u.sp = s.sp + k := by
  cases h with
  | pop hw => exact .inl hw.sp_high
  | write a v hw => exact .inl (by simpa using hw.sp_high)
  | push v hw hopc =>
    have hlisted : [0, 19] ⊆ [0, 19, 25] := by decide
    exact .inr (.inl ⟨by simpa using hw.sp_high, hlisted hopc⟩)
  | copy v hw hopc =>
    have hlisted : [19, 25] ⊆ [0, 19, 25] := by decide
    exact .inr (.inl ⟨by simpa using hw.sp_high, hlisted hopc⟩)
  | jump ip hw => exact .inl hw.sp_high
  | alloc k _ _ hk => exact .inr (.inr ⟨k, hk, rfl⟩)

/-- The stack pointer is never lowered past -1 (10_state.md R25). -/
theorem EffectForm.sp_low {i : Instr} {s u : State} (h : EffectForm i s u) (hs : -1 ≤ s.sp) :
    -1 ≤ u.sp := by
  have hpopped : ∀ {w : State}, s.Popped w → -1 ≤ w.sp := fun hw => by
    have := hw.sp_low
    omega
  cases h with
  | pop hw => exact hpopped hw
  | write a v hw => simpa using hpopped hw
  | push v hw => have := hpopped hw; rw [push_sp]; omega
  | copy v hw => have := hpopped hw; rw [pushCopy_sp]; omega
  | jump ip hw => exact (hpopped hw :)
  | alloc k _ _ _ hdepth => exact hdepth

/-- Every complete effect keeps the canonical form of the stack array. -/
theorem EffectForm.stack_wf {i : Instr} {s u : State} (h : EffectForm i s u)
    (hs : s.stack.wf s.memMax = true) : u.stack.wf s.memMax = true := by
  have hpopped : ∀ {w : State}, s.Popped w → w.stack.wf w.memMax = true := fun hw => by
    rwa [hw.stack_eq, hw.memMax_eq]
  cases h with
  | pop hw => exact hw.memMax_eq ▸ hpopped hw
  | write a v hw => exact hw.memMax_eq ▸ memWrite_wf a v _ (hpopped hw)
  | push v hw => exact hw.memMax_eq ▸ memWrite_wf _ v _ (hpopped hw :)
  | copy v hw => exact hw.memMax_eq ▸ pushCopy_wf v _ (hpopped hw)
  | jump ip hw => exact hw.memMax_eq ▸ (hpopped hw :)
  | alloc k lo hi => exact Memory.wf_undefine lo hi hs

/-! ### Where a fault comes from (40_dispatch.md R104, R107) -/

/-- The state `s` that a complete effect leaves fails the post-check with the cause given. -/
inductive State.FailsPostCheck (s : State) : Cause → Prop
  | overCapacity (h : (s.memMax : Int) ≤ s.sp ∨ (s.memMax : Int) ≤ s.hp) :
      s.FailsPostCheck .memoryOverflow
  | ipOutOfRange (h : s.ip < 0 ∨ s.len < s.ip) : s.FailsPostCheck .illegalInstructionAccess

@[simp] theorem finish_ip (opc : BitVec 8) (i : Int) (s : State) : (finish opc i s).ip = s.ip := by
  rw [finish_eq]

theorem statusUpdate_not_faulted (s : State) :
    (statusUpdate s).stateField ≠ RunState.faulted.code := by
  rw [statusUpdate_stateField]
  split <;> decide

theorem finish_of_faulted {opc : BitVec 8} {i : Int} {s : State}
    (h : (finish opc i s).stateField = RunState.faulted.code) :
    ∃ c, s.FailsPostCheck c ∧ finish opc i s = faultEntry c opc i s := by
  rcases finish_cases opc i s with ⟨hover, hfault⟩ | ⟨-, -, hip, hfault⟩ | ⟨-, -, -, -, hpass⟩
  · exact ⟨_, .overCapacity hover, hfault⟩
  · exact ⟨_, .ipOutOfRange hip, hfault⟩
  · exact absurd (hpass ▸ h) (statusUpdate_not_faulted s)

/-- A faulting instruction takes fault entry after a failed pre-check, or after a complete effect
that fails the post-check. -/
theorem exec_next_of_faulted {i : Instr} {s t : State} (h : exec i s = .next t)
    (ht : t.stateField = RunState.faulted.code) :
    ∃ c u, t = faultEntry c (opcOf i) s.ip u ∧
      (effectOf i (s.setIp (s.ip + 1)) = .raise c u ∨
       (effectOf i (s.setIp (s.ip + 1)) = .done u ∧ u.FailsPostCheck c)) := by
  rw [exec_eq_runInstr] at h
  rcases runInstr_next.mp h with ⟨u, heff, rfl⟩ | ⟨c, u, heff, rfl⟩
  · obtain ⟨c, hpost, hfinish⟩ := finish_of_faulted ht
    exact ⟨c, u, hfinish, .inr ⟨heff, hpost⟩⟩
  · exact ⟨c, u, rfl, .inl heff⟩

/-- The state `u` in which a step from `s` takes fault entry with cause `c`: before any effect
but the sequencer's, or after a complete effect that fails the post-check. -/
inductive StepFaults (s : State) (c : Cause) (u : State) : Prop
  | before (hsame : (s.setIp (s.ip + 1)).SameButDraws u) (hc : c ≠ .memoryOverflow)
  | after (hsame : s.SameOutside u) (hpost : u.FailsPostCheck c)

theorem State.SameButDraws.sameOutside {s u : State} (h : s.SameButDraws u) : s.SameOutside u := by
  unfold State.SameButDraws at h
  rw [State.SameOutside, h]

theorem StepFaults.sameOutside {s u : State} {c : Cause} (h : StepFaults s c u) :
    s.SameOutside u := by
  cases h with
  | before hsame => exact hsame.sameOutside.of_setIp
  | after hsame => exact hsame

/-- A failed pre-check leaves no effect but the sequencer's (40_dispatch.md R104). -/
theorem State.SameButDraws.noEffect {s u : State} (h : (s.setIp (s.ip + 1)).SameButDraws u) :
    u.sp = s.sp ∧ u.ip = s.ip + 1 ∧ CellsKept s u :=
  ⟨(congrArg State.sp h :), (congrArg State.ip h :), fun b => (congrArg (State.slotAt · b) h :)⟩

/-- A faulting step takes fault entry with the fetched word's OPC byte (60_exceptions.md R310). -/
theorem step_next_of_faulted {s t : State} (hrun : s.stateField = RunState.running.code)
    (h : step s = .next t) (ht : t.stateField = RunState.faulted.code) :
    ∃ w c u, fetch s = some w ∧ t = faultEntry c (opcField w) s.ip u ∧ StepFaults s c u := by
  obtain ⟨w, hfetch, ⟨i, hdecode, hexec⟩ | ⟨-, rfl⟩⟩ := (step_next_iff_of_running hrun).mp h
  · obtain ⟨c, u, hentry, horigin⟩ := exec_next_of_faulted hexec ht
    refine ⟨w, c, u, hfetch, opcOf_of_decode hdecode ▸ hentry, ?_⟩
    rcases horigin with hraise | ⟨hdone, hpost⟩
    · have hc : c ∈ preChecks i := effectOf_raisesOnly i _ c u hraise
      exact .before (effectOf_raise hraise)
        fun e => memoryOverflow_not_mem_preChecks i (e ▸ hc)
    · exact .after (effectOf_done hdone).of_setIp hpost
  · exact ⟨w, _, _, hfetch, rfl, .before (State.sameButDraws_refl _) (by decide)⟩

/-- A step of a RUNNING block ends with a write of STATUS and FAULT_IP alone, in a state that an
effect at most separates from the one before. -/
theorem step_sameOutside {s t : State} (hrun : s.stateField = RunState.running.code)
    (h : step s = .next t) : ∃ u, s.SameOutside u ∧
      t = { u with status := t.status, faultIp := t.faultIp } := by
  by_cases ht : t.stateField = RunState.faulted.code
  · obtain ⟨w, c, u, -, rfl, hfaults⟩ := step_next_of_faulted hrun h ht
    exact ⟨u, hfaults.sameOutside, rfl⟩
  · obtain ⟨u, hsame, -, rfl⟩ := step_next_of_unfaulted hrun h ht
    exact ⟨u, hsame, rfl⟩

/-- Past its pre-checks an instruction that is run at a program word raises MemoryOverflow only when
it moves `sp` up, and IllegalInstructionAccess only when it writes `ip`. -/
theorem raisedBy_of_failsPostCheck {i : Instr} {s u : State} {c : Cause} (hat : s.AtInstruction)
    (hdone : effectOf i (s.setIp (s.ip + 1)) = .done u) (hpost : u.FailsPostCheck c) :
    c.RaisedBy (opcOf i).toNat := by
  obtain ⟨-, hmax, hhp, h0, hlen⟩ := hat
  have hsame : s.SameOutside u := (effectOf_done hdone).of_setIp
  have hform := effectForm_of_done hdone
  cases hpost with
  | overCapacity hover =>
    rw [hsame.memMax_eq, hsame.hp_eq] at hover
    rcases hform.sp_cases with hsp | ⟨-, hopc⟩ | ⟨k, rfl, -⟩
    · rw [State.setIp_sp] at hsp
      omega
    · have hlisted : [0, 19, 25] ⊆ [0, 19, 25, 26] := by decide
      exact hlisted hopc
    · simp [Cause.RaisedBy, opcOf]
  | ipOutOfRange hip =>
    rw [hsame.len_eq] at hip
    rcases hform.ip_cases with heq | ⟨hjump, -⟩
    · rw [State.setIp_ip] at heq
      omega
    · exact opcOf_of_isJump hjump

theorem Cause.code_range (c : Cause) : 1 ≤ c.code.toNat ∧ c.code.toNat ≤ 6 := by
  cases c <;> decide

theorem Cause.code_injective : Function.Injective Cause.code := by
  intro c d
  cases c <;> cases d <;> decide

end Sys2Proof.Machine

namespace Sys2Proof.Proofs

open Sys2Proof.Machine Sys2Proof.Statements

/-- Settles O19: the gate, the fetch and the decode pass the state on as it is. -/
theorem stepRunsTheDecodedInstruction : Obligations.StepRunsTheDecodedInstruction := by
  intro s w i hfetches hdecode
  have hgate : s.isRunning = true := s.isRunning_iff.mpr hfetches.1
  simp [step, hgate, fetch_of_fetches hfetches, hdecode]

/-- Settles O23: the fields are those that fault entry packs. -/
theorem faultLatchesIndexAndOpcByte : Obligations.FaultLatchesIndexAndOpcByte := by
  intro s t w hfetches hstep ht
  obtain ⟨w', c, u, hfetch, rfl, -⟩ := step_next_of_faulted hfetches.1 hstep ht
  obtain rfl : w = w' := Option.some.inj ((fetch_of_fetches hfetches).symm.trans hfetch)
  obtain ⟨hcode1, hcode6⟩ := c.code_range
  rw [faultEntry_fcode]
  exact ⟨rfl, (faultEntry_fop _ _ _ _).trans (opcField_eq_ofNat w), hcode1, hcode6,
    faultEntry_reservedField _ _ _ _⟩

/-- Settles O24: the post-check raises two other faults, so a pre-check has failed. -/
theorem preCheckFaultLeavesNoEffect : Obligations.PreCheckFaultLeavesNoEffect := by
  intro s t hrun hstep ht hcode
  obtain ⟨w, c, u, -, rfl, hfaults⟩ := step_next_of_faulted hrun hstep ht
  have hsame := hfaults.sameOutside
  rw [faultEntry_fcode] at hcode
  cases hfaults with
  | before hbefore =>
    obtain ⟨hsp, hip, hcells⟩ := hbefore.noEffect
    exact ⟨hsp, hsame.hp_eq, hip, hsame.heap_eq, hsame.prog_eq, hcells⟩
  | after _ hpost => cases hpost <;> exact absurd hcode (by decide)

/-- Settles O25: MemoryOverflow is raised by the post-check alone, IllegalInstructionAccess by the
post-check or by a pre-check. -/
theorem postCheckFaultShowsItsCause : Obligations.PostCheckFaultShowsItsCause := by
  intro s t hrun hstep ht
  obtain ⟨w, c, u, -, rfl, hfaults⟩ := step_next_of_faulted hrun hstep ht
  have hsame := hfaults.sameOutside
  rw [faultEntry_fcode]
  constructor
  · intro hcode
    obtain rfl : c = .memoryOverflow := Cause.code_injective hcode
    cases hfaults with
    | before _ hc => exact absurd rfl hc
    | after _ hpost =>
      obtain ⟨hover⟩ := hpost
      exact hsame.memMax_eq ▸ hover
  · intro hcode
    obtain rfl : c = .illegalInstructionAccess := Cause.code_injective hcode
    cases hfaults with
    | before hbefore => exact .inr hbefore.noEffect
    | after _ hpost =>
      cases hpost with
      | ipOutOfRange hip => exact .inl hip

/-- Settles O26: a pre-check raises what `preChecks` lists; past it only the pushes and ALLOC raise
`sp`, and only the jumps write `ip`. -/
theorem faultsComeFromTheirOpcodesOnly : Obligations.FaultsComeFromTheirOpcodesOnly := by
  intro i s t hat hexec ht
  obtain ⟨c, u, rfl, horigin⟩ := exec_next_of_faulted hexec ht
  have hraised : c.RaisedBy (opcOf i).toNat := by
    rcases horigin with hraise | ⟨hdone, hpost⟩
    · exact raisedBy_of_mem_preChecks i c (effectOf_raisesOnly i _ c u hraise)
    · exact raisedBy_of_failsPostCheck hat hdone hpost
  rw [faultEntry_fcode]
  cases c
  case unsupportedOperation => exact False.elim hraised
  all_goals simpa [Cause.code, Cause.RaisedBy] using hraised

/-- Settles O27: only the effect of a jump writes `ip` after the sequencer. -/
theorem onlyJumpsLeaveTheSequence : Obligations.OnlyJumpsLeaveTheSequence := by
  intro i s t hjump hexec
  rw [exec_eq_runInstr] at hexec
  rcases runInstr_next.mp hexec with ⟨u, heff, rfl⟩ | ⟨c, u, heff, rfl⟩
  · rw [finish_ip]
    exact (effectForm_of_done heff).ip_cases.resolve_right fun h => hjump h.1
  · obtain ⟨-, hip, -⟩ := (effectOf_raise heff).noEffect
    exact hip

/-- Settles O28: neither an effect nor what follows it writes one of the four. -/
theorem stepKeepsProgramHeapAndHp : Obligations.StepKeepsProgramHeapAndHp := by
  intro s t hstep
  by_cases hrun : s.stateField = RunState.running.code
  · obtain ⟨u, hsame, ht⟩ := step_sameOutside hrun hstep
    rw [ht]
    exact ⟨hsame.prog_eq, hsame.memMax_eq, hsame.heap_eq, hsame.hp_eq⟩
  · rw [step_of_not_running hrun] at hstep
    cases hstep
    exact ⟨rfl, rfl, rfl, rfl⟩

end Sys2Proof.Proofs
end

section
/-! The invariant of the machine (10_state.md sections 2 to 5, 00_scope.md R5 to R8): CONSTRUCT
meets it, every step keeps it, and from a state that meets it the model never stops; with them the
statements about the invariant and about every reachable state. -/

namespace Sys2Proof.Machine

open Sys2Proof.Statements

/-! ### CONSTRUCT -/

theorem State.construct_inv {words : List InstrWord} {memMax : Nat}
    (hlen : lengthInRange words = true) (hmax : 1 ≤ memMax) :
    (State.construct words memMax).Inv where
  capacity := hmax
  stackForm := rfl
  heapForm := rfl
  heapUntouched := rfl
  hpUntouched := rfl
  lenInRange := of_decide_eq_true hlen
  reservedZero := State.construct_reservedField _ _
  spLow := le_refl _
  spFits _ := by simp [fitsPointer]
  ipFits := by simp [fitsPointer]
  faultIpFits := by simp [fitsPointer]
  whenRunning h := by
    have hwords : words ≠ [] := by
      rintro rfl
      simp [RunState.code] at h
    have hpos : 0 < words.length := List.length_pos_of_ne_nil hwords
    exact ⟨by rw [State.construct_sp, State.construct_memMax]; omega, le_refl _,
      by rw [State.construct_ip, State.construct_len]; omega, State.construct_fcode _ _,
      State.construct_fop _ _, rfl⟩
  whenHalted h := by
    have hwords : words = [] := by
      by_contra hne
      simp [hne, RunState.code] at h
    exact ⟨by rw [State.construct_sp, State.construct_memMax]; omega, by simp [hwords],
      State.construct_fcode _ _, State.construct_fop _ _, rfl⟩
  whenFaulted h := by
    rw [State.construct_stateField] at h
    split at h <;> exact absurd h (by decide)
  stateLegal h := by
    rw [State.construct_stateField] at h
    split at h <;> exact absurd h (by decide)

/-! ### A step from a RUNNING state with the invariant -/

theorem State.Inv.atInstruction {s : State} (h : s.Inv)
    (hrun : s.stateField = RunState.running.code) : s.AtInstruction := by
  obtain ⟨hsp, h0, hlen, -⟩ := h.whenRunning hrun
  have hcap := h.capacity
  have hhp := h.hpUntouched
  exact ⟨h.spLow, hsp, by omega, h0, hlen⟩

/-- What an execute phase from `s` leaves in `u`, complete or not: the ranges of the invariant that
do not depend on STATE. -/
structure State.KeepsRanges (s u : State) : Prop where
  same : s.SameOutside u
  stackForm : u.stack.wf s.memMax = true
  spLow : -1 ≤ u.sp
  spFits : s.memMax ≤ 2147483648 → fitsPointer u.sp
  ipFits : fitsPointer u.ip

/-- The target of an encodable jump fits a pointer register: both summands have 32 bits. -/
theorem fitsPointer_of_jumpsTo {i : Instr} {ip : Int} (hwf : i.wellFormed = true)
    (h : JumpsTo i ip) : fitsPointer ip := by
  obtain ⟨-, t, harg, o, rfl⟩ := h
  rw [Instr.wellFormed, harg] at hwf
  obtain ⟨htlow, hthigh⟩ := (argInRange_iff t).1 hwf
  obtain ⟨holow, hohigh⟩ := (argInRange_iff _).1 (argInRange_toInt o)
  constructor <;> omega

/-- A complete effect raises `sp` by 1 or by an encodable `k` at most. -/
theorem EffectForm.sp_high {i : Instr} {s u : State} (h : EffectForm i s u)
    (hwf : i.wellFormed = true) : u.sp ≤ s.sp + 2147483647 := by
  rcases h.sp_cases with hsp | ⟨hsp, -⟩ | ⟨k, rfl, hsp⟩
  · omega
  · omega
  · obtain ⟨-, hk⟩ := (argInRange_iff k).1 hwf
    omega

theorem State.Inv.keepsRanges_of_done {s u : State} {i : Instr} (h : s.Inv)
    (hrun : s.stateField = RunState.running.code) (hwf : i.wellFormed = true)
    (hdone : effectOf i (s.setIp (s.ip + 1)) = .done u) : s.KeepsRanges u := by
  obtain ⟨hlow, hsp, -, h0, hlen⟩ := h.atInstruction hrun
  have hprog : s.len ≤ 2147483647 := h.lenInRange
  have hform := effectForm_of_done hdone
  have hhigh : u.sp ≤ s.sp + 2147483647 := hform.sp_high hwf
  have hlow' : -1 ≤ u.sp := hform.sp_low hlow
  refine ⟨(effectOf_done hdone).of_setIp, hform.stack_wf h.stackForm, hlow', fun hmax => ?_, ?_⟩
  · constructor <;> omega
  · rcases hform.ip_cases with hip | hjump
    · rw [hip, State.setIp_ip]
      constructor <;> omega
    · exact fitsPointer_of_jumpsTo hwf hjump

theorem State.Inv.keepsRanges_of_sameButDraws {s u : State} (h : s.Inv)
    (hrun : s.stateField = RunState.running.code)
    (hsame : (s.setIp (s.ip + 1)).SameButDraws u) : s.KeepsRanges u := by
  obtain ⟨-, -, -, h0, hlen⟩ := h.atInstruction hrun
  have hprog : s.len ≤ 2147483647 := h.lenInRange
  rw [hsame]
  refine ⟨rfl, h.stackForm, h.spLow, h.spFits, ?_⟩
  constructor <;> simp only [State.setIp_ip] <;> omega

/-- Fault entry after such an execute phase gives a FAULTED state with the invariant. -/
theorem State.Inv.faultEntry {s u : State} (h : s.Inv)
    (hrun : s.stateField = RunState.running.code) (hu : s.KeepsRanges u) (c : Cause)
    (opc : BitVec 8) : (faultEntry c opc s.ip u).Inv := by
  obtain ⟨-, -, -, h0, hlen⟩ := h.atInstruction hrun
  have hfaulted := faultEntry_stateField c opc s.ip u
  have hprog := h.lenInRange
  have hmax := hu.same.memMax_eq
  obtain ⟨hcode1, hcode6⟩ := c.code_range
  exact {
    capacity := hmax ▸ h.capacity
    stackForm := hmax ▸ hu.stackForm
    heapForm := hmax ▸ hu.same.heap_eq ▸ h.heapForm
    heapUntouched := hu.same.heap_eq ▸ h.heapUntouched
    hpUntouched := hu.same.hp_eq ▸ h.hpUntouched
    lenInRange := hu.same.len_eq ▸ hprog
    reservedZero := faultEntry_reservedField _ _ _ _
    spLow := hu.spLow
    spFits := hmax ▸ hu.spFits
    ipFits := hu.ipFits
    faultIpFits := h.ipFits
    whenRunning := fun e => absurd (hfaulted.symm.trans e) (by decide)
    whenHalted := fun e => absurd (hfaulted.symm.trans e) (by decide)
    whenFaulted := fun _ => by
      rw [faultEntry_fcode]
      exact ⟨hcode1, hcode6, h0, hu.same.len_eq ▸ hlen⟩
    stateLegal := fun e => absurd (hfaulted.symm.trans e) (by decide) }

/-- The status update after an execute phase that passes the post-check gives a RUNNING or HALTED
state with the invariant. -/
theorem State.Inv.statusUpdate {s u : State} (h : s.Inv)
    (hrun : s.stateField = RunState.running.code) (hu : s.KeepsRanges u)
    (hpass : u.PassesPostCheck) : (statusUpdate u).Inv := by
  obtain ⟨-, -, -, hfcode, hfop, hfaultIp⟩ := h.whenRunning hrun
  have hstate := statusUpdate_stateField u
  have hprog := h.lenInRange
  have hmax := hu.same.memMax_eq
  have hfcode' : (Machine.statusUpdate u).fcode = 0#4 := by
    rw [statusUpdate_fcode, hu.same.fcode_eq, hfcode]
  have hfop' : (Machine.statusUpdate u).fop = 0#8 := by
    rw [statusUpdate_fop, hu.same.fop_eq, hfop]
  have hfaultIp' : u.faultIp = 0 := hu.same.faultIp_eq.trans hfaultIp
  exact {
    capacity := hmax ▸ h.capacity
    stackForm := hmax ▸ hu.stackForm
    heapForm := hmax ▸ hu.same.heap_eq ▸ h.heapForm
    heapUntouched := hu.same.heap_eq ▸ h.heapUntouched
    hpUntouched := hu.same.hp_eq ▸ h.hpUntouched
    lenInRange := hu.same.len_eq ▸ hprog
    reservedZero := State.setRunState_reservedField _ _
    spLow := hu.spLow
    spFits := hmax ▸ hu.spFits
    ipFits := hu.ipFits
    faultIpFits := hu.same.faultIp_eq ▸ h.faultIpFits
    whenRunning := fun e => by
      have hip : u.ip ≠ u.len := fun hend => by
        rw [hstate, if_pos hend] at e
        exact absurd e (by decide)
      exact ⟨hpass.sp_lt, hpass.ip_nonneg, lt_of_le_of_ne hpass.ip_le_len hip, hfcode', hfop',
        hfaultIp'⟩
    whenHalted := fun e => by
      have hip : u.ip = u.len := by
        by_contra hne
        rw [hstate, if_neg hne] at e
        exact absurd e (by decide)
      exact ⟨hpass.sp_lt, hip, hfcode', hfop', hfaultIp'⟩
    whenFaulted := fun e => absurd e (statusUpdate_not_faulted u)
    stateLegal := by
      rw [hstate]
      split <;> decide }

theorem State.Inv.finish {s u : State} (h : s.Inv)
    (hrun : s.stateField = RunState.running.code) (hu : s.KeepsRanges u) (opc : BitVec 8) :
    (finish opc s.ip u).Inv := by
  rcases finish_cases opc s.ip u with ⟨-, he⟩ | ⟨-, -, -, he⟩ | ⟨hsp, hhp, h0, hlen, he⟩
  · exact he ▸ h.faultEntry hrun hu _ _
  · exact he ▸ h.faultEntry hrun hu _ _
  · exact he ▸ h.statusUpdate hrun hu ⟨hsp, hhp, h0, hlen⟩

theorem State.Inv.exec {i : Instr} {s t : State} (h : s.Inv)
    (hrun : s.stateField = RunState.running.code) (hwf : i.wellFormed = true)
    (hexec : exec i s = .next t) : t.Inv := by
  rw [exec_eq_runInstr] at hexec
  rcases runInstr_next.mp hexec with ⟨u, hdone, rfl⟩ | ⟨c, u, hraise, rfl⟩
  · exact h.finish hrun (h.keepsRanges_of_done hrun hwf hdone) _
  · exact h.faultEntry hrun (h.keepsRanges_of_sameButDraws hrun (effectOf_raise hraise)) _ _

theorem State.Inv.step {s t : State} (h : s.Inv) (hstep : step s = .next t) : t.Inv := by
  by_cases hrun : s.stateField = RunState.running.code
  · obtain ⟨w, -, ⟨i, hdecode, hexec⟩ | ⟨-, rfl⟩⟩ := (step_next_iff_of_running hrun).mp hstep
    · exact h.exec hrun (wellFormed_of_decode hdecode) hexec
    · exact h.faultEntry hrun (h.keepsRanges_of_sameButDraws hrun (State.sameButDraws_refl _)) _ _
  · rw [step_of_not_running hrun] at hstep
    cases hstep
    exact h

/-! ### The model does not stop (20_memory.md R53, 40_dispatch.md R101) -/

/-- The execute phase `e` reads no cell outside the array. -/
def Effect.NeverStops (e : Effect) : Prop := ∀ f, e ≠ .stop f

theorem neverStops_done (u : State) : (Effect.done u).NeverStops := nofun

theorem neverStops_raise (c : Cause) (u : State) : (Effect.raise c u).NeverStops := nofun

theorem neverStops_needDepth {n : Int} {s : State} {e : Effect} (he : n ≤ s.sp → e.NeverStops) :
    (needDepth n s e).NeverStops := by
  unfold needDepth
  split
  · exact neverStops_raise _ _
  · exact he (by omega)

theorem neverStops_needAddress {a l : Int} {s : State} {e : Effect}
    (he : 0 ≤ a → a ≤ l → e.NeverStops) : (needAddress a l s e).NeverStops := by
  unfold needAddress
  split
  · exact neverStops_raise _ _
  · exact he (by omega) (by omega)

theorem neverStops_needTarget {t : Int} {s : State} {e : Effect} (he : e.NeverStops) :
    (needTarget t s e).NeverStops := by
  unfold needTarget
  split
  · exact neverStops_raise _ _
  · exact he

theorem neverStops_noCheck (a b : Int) (s : State) {e : Effect} (he : e.NeverStops) :
    (noCheck a b s e).NeverStops := he

theorem neverStops_needDivisor (a b : Int) (s : State) {e : Effect} (he : e.NeverStops) :
    (needDivisor a b s e).NeverStops := by
  unfold needDivisor
  split
  · exact neverStops_raise _ _
  · exact he

section
variable {s : State} (hmax : s.sp < (s.memMax : Int))
include hmax

/-- A read of a live cell does not stop the model, and leaves `sp` below the capacity. -/
theorem neverStops_readCell {a : Int} {k : Cell → State → Effect} (h0 : 0 ≤ a) (ha : a ≤ s.sp)
    (hk : ∀ v u, u.sp = s.sp → u.sp < (u.memMax : Int) → (k v u).NeverStops) :
    (readCell a s k).NeverStops := by
  rw [readCell_inside s k ((inArray_iff _ _).2 ⟨h0, by omega⟩)]
  exact hk _ _ (State.afterRead_sp _ _) (by simpa using hmax)

theorem neverStops_copyTop (hdepth : 0 ≤ s.sp) : (copyTop s).NeverStops :=
  neverStops_readCell hmax hdepth (le_refl _) fun _ _ _ _ => neverStops_done _

theorem neverStops_binop {n : Int} {check : Int → Int → State → Effect → Effect}
    {f : Int → Int → Int} (hn : 1 ≤ n)
    (hcheck : ∀ a b u {e : Effect}, e.NeverStops → (check a b u e).NeverStops) :
    (binop n check f s).NeverStops :=
  neverStops_needDepth fun hdepth =>
    neverStops_readCell hmax (by omega) (by omega) fun _ _ hsp hmax' =>
      neverStops_readCell hmax' (by omega) (le_refl _) fun _ _ _ _ =>
        hcheck _ _ _ (neverStops_done _)

theorem neverStops_unop (f : Int → Int) : (unop f s).NeverStops :=
  neverStops_needDepth fun hdepth => neverStops_readCell hmax hdepth (le_refl _)
    fun _ _ _ _ => neverStops_done _

/-- With `sp` below the capacity every instruction reads cells of the array only. -/
theorem effectOf_neverStops (i : Instr) : (effectOf i s).NeverStops := by
  cases i
  case loadc => exact neverStops_done _
  case add | sub | mul | and | or | eq | neq | le | leq | gr | geq =>
    exact neverStops_binop hmax (le_refl 1) neverStops_noCheck
  case xor => exact neverStops_binop hmax one_le_two neverStops_noCheck
  case div | mod => exact neverStops_binop hmax (le_refl 1) neverStops_needDivisor
  case not | neg => exact neverStops_unop hmax _
  case load =>
    exact neverStops_needDepth fun hdepth =>
      neverStops_readCell hmax hdepth (le_refl _) fun _ _ _ hmax' =>
        neverStops_needAddress fun h0 ha =>
          neverStops_readCell hmax' h0 ha fun _ _ _ _ => neverStops_done _
  case store =>
    exact neverStops_needDepth fun hdepth =>
      neverStops_readCell hmax (by omega) (le_refl _) fun _ _ _ hmax' =>
        neverStops_needAddress fun _ _ =>
          neverStops_readCell hmax' (by omega) (by omega) fun _ _ _ _ => neverStops_done _
  case loada a =>
    refine neverStops_needAddress fun h0 ha => ?_
    split
    · exact neverStops_copyTop hmax (h0.trans ha)
    · exact neverStops_readCell hmax h0 ha fun _ _ _ _ => neverStops_done _
  case storea =>
    exact neverStops_needDepth fun hdepth => neverStops_needAddress fun _ _ =>
      neverStops_readCell hmax hdepth (le_refl _) fun _ _ _ _ => neverStops_done _
  case pop => exact neverStops_needDepth fun _ => neverStops_done _
  case jump => exact neverStops_needTarget (neverStops_done _)
  case jumpz | jumpi =>
    exact neverStops_needTarget <| neverStops_needDepth fun hdepth =>
      neverStops_readCell hmax hdepth (le_refl _) fun _ _ _ _ => neverStops_done _
  case dup => exact neverStops_needDepth fun hdepth => neverStops_copyTop hmax hdepth
  case alloc k =>
    change (allocEffect k s).NeverStops
    rcases lt_or_ge (s.sp + k) (-1) with hlow | hdepth
    · rw [allocEffect_underflow hlow]
      exact neverStops_raise _ _
    · rw [allocEffect_of_depth hdepth]
      exact neverStops_done _

end

/-- An instruction run at a program word answers a next state. -/
theorem exists_exec_next (i : Instr) {s : State} (hat : s.AtInstruction) :
    ∃ t, exec i s = .next t := by
  obtain ⟨-, hmax, -⟩ := hat
  rw [exec_eq_runInstr]
  cases heff : effectOf i (s.setIp (s.ip + 1)) with
  | done u => exact ⟨_, runInstr_of_done heff⟩
  | raise c u => exact ⟨_, runInstr_of_raise heff⟩
  | stop f => exact absurd heff (effectOf_neverStops (s := s.setIp (s.ip + 1)) hmax i f)

/-- At a program word there is a word to fetch (40_dispatch.md R101). -/
theorem exists_fetch_of_atInstruction {s : State} (hat : s.AtInstruction) :
    ∃ w, s.prog[s.ip.toNat]? = some w ∧ fetch s = some w := by
  obtain ⟨-, -, -, h0, hlen⟩ := hat
  have hindex : s.ip.toNat < s.prog.length := by
    rw [State.len] at hlen
    omega
  have hword := List.getElem?_eq_getElem hindex
  exact ⟨_, hword, (if_pos h0).trans hword⟩

theorem State.Inv.exists_step {s : State} (h : s.Inv) : ∃ t, Machine.step s = .next t := by
  by_cases hrun : s.stateField = RunState.running.code
  · have hat := h.atInstruction hrun
    obtain ⟨w, -, hfetch⟩ := exists_fetch_of_atInstruction hat
    cases hdecode : decode w with
    | ok i =>
      obtain ⟨t, hexec⟩ := exists_exec_next i hat
      exact ⟨t, (step_next_iff_of_running hrun).2 ⟨w, hfetch, .inl ⟨i, hdecode, hexec⟩⟩⟩
    | error e =>
      exact ⟨_, (step_next_iff_of_running hrun).2 ⟨w, hfetch, .inr ⟨⟨e, hdecode⟩, rfl⟩⟩⟩
  · exact ⟨s, step_of_not_running hrun⟩

theorem Reachable.inv {s : State} (h : Reachable s) : s.Inv := by
  induction h with
  | construct words memMax hlen hmax => exact State.construct_inv hlen hmax
  | step s t _ hstep ih => exact ih.step hstep

end Sys2Proof.Machine

namespace Sys2Proof.Proofs

open Sys2Proof.Machine Sys2Proof.Statements

/-- Settles O35: `State.reset` is CONSTRUCT of the empty program with the default capacity. -/
theorem constructedStatesMeetTheInvariant : Obligations.ConstructedStatesMeetTheInvariant :=
  ⟨fun _ _ => State.construct_inv, State.construct_nil ▸ State.construct_inv rfl (by decide)⟩

/-- Settles O36: the ranges hold after every execute phase, and fault entry and the status update
then give what STATE promises. -/
theorem stepKeepsTheInvariant : Obligations.StepKeepsTheInvariant :=
  fun _ _ => State.Inv.step

/-- Settles O37: the fetch finds a word, and every instruction answers. -/
theorem invariantStatesAlwaysStep : Obligations.InvariantStatesAlwaysStep :=
  fun _ => State.Inv.exists_step

/-- Settles O38: every reachable state meets the invariant. -/
theorem reachableStatesFetchInRange : Obligations.ReachableStatesFetchInRange := by
  intro s hreach
  have hinv := hreach.inv
  refine ⟨fun hrun => ?_, hinv.exists_step⟩
  have hat := hinv.atInstruction hrun
  obtain ⟨w, hword, -⟩ := exists_fetch_of_atInstruction hat
  have ⟨_, _, _, h0, _⟩ := hat
  exact ⟨hat, w, hrun, h0, hword⟩

end Sys2Proof.Proofs
end

section
/-! Dead and undefined contents (93_implementation_defined.md U1 to U3, 20_memory.md R53): every
operation of the machine keeps the agreement of two states on their live, defined cells, so every
execute phase and every step does; and the statement that says so. -/

namespace Sys2Proof.Machine

/-! ### Agreement on one cell -/

/-- Cell `a` is defined in both states or in neither, and where it is, it holds the same. -/
def State.CellAgrees (s t : State) (a : Nat) : Prop :=
  s.isDefined a = t.isDefined a ∧ (s.isDefined a = true → s.slotAt a = t.slotAt a)

theorem isDefined_congr {s t : State} {a b : Nat} (h : s.slotAt a = t.slotAt b) :
    s.isDefined a = t.isDefined b := by
  rw [State.isDefined, State.isDefined, h]

theorem cellAgrees_of_slotAt_eq {s t : State} {a : Nat} (h : s.slotAt a = t.slotAt a) :
    s.CellAgrees t a := ⟨isDefined_congr h, fun _ => h⟩

/-- Cells that both states have kept still agree. -/
theorem State.CellAgrees.of_kept {s t s' t' : State} {a : Nat} (h : s.CellAgrees t a)
    (hs : s'.slotAt a = s.slotAt a) (ht : t'.slotAt a = t.slotAt a) : s'.CellAgrees t' a := by
  rw [State.CellAgrees, isDefined_congr hs, isDefined_congr ht, hs, ht]
  exact h

/-- The same update of one cell, or of none, keeps the agreement on every cell. -/
theorem State.CellAgrees.of_update {s t s' t' : State} {a : Nat} {p : Prop} [Decidable p]
    {x : Option Slot} (h : s.CellAgrees t a) (hs : s'.slotAt a = if p then x else s.slotAt a)
    (ht : t'.slotAt a = if p then x else t.slotAt a) : s'.CellAgrees t' a := by
  by_cases hp : p
  · exact cellAgrees_of_slotAt_eq (by rw [hs, ht, if_pos hp, if_pos hp])
  · exact h.of_kept (by rw [hs, if_neg hp]) (by rw [ht, if_neg hp])

/-- Two undefined cells agree, whatever they hold. -/
theorem cellAgrees_of_undefined {s t : State} {a : Nat} (hs : s.isDefined a = false)
    (ht : t.isDefined a = false) : s.CellAgrees t a :=
  ⟨hs.trans ht.symm, fun h => absurd (hs.symm.trans h) (by decide)⟩

/-- A cell on which two states agree reads alike when they have taken as many DRAWs. -/
theorem State.CellAgrees.readValue_eq {s t : State} {a : Int} (h : s.CellAgrees t a.toNat)
    (hdraws : s.draws = t.draws) : s.readValue a = t.readValue a := by
  obtain ⟨hdefined, hslot⟩ := h
  cases hs : s.isDefined a.toNat with
  | true => exact State.readValue_congr (hslot hs) hdraws
  | false => rw [State.readValue_undefined hs, State.readValue_undefined (hdefined ▸ hs), hdraws]

theorem State.CellAgrees.afterRead_draws_eq {s t : State} {a : Int} (h : s.CellAgrees t a.toNat)
    (hdraws : s.draws = t.draws) : (s.afterRead a).draws = (t.afterRead a).draws := by
  obtain ⟨hdefined, -⟩ := h
  cases hs : s.isDefined a.toNat with
  | true => rw [State.afterRead_defined hs, State.afterRead_defined (hdefined ▸ hs), hdraws]
  | false =>
    rw [State.afterRead_undefined hs, State.afterRead_undefined (hdefined ▸ hs),
      State.takeDraw_draws, State.takeDraw_draws, hdraws]

/-! ### Agreement of two states -/

section
variable {s t : State} (h : s.AgreeOnLive t)
include h

theorem State.AgreeOnLive.sp_eq : s.sp = t.sp := h.1

theorem State.AgreeOnLive.ip_eq : s.ip = t.ip := by
  obtain ⟨-, -, hip, -⟩ := h
  exact hip

theorem State.AgreeOnLive.status_eq : s.status = t.status := by
  obtain ⟨-, -, -, hstatus, -⟩ := h
  exact hstatus

theorem State.AgreeOnLive.prog_eq : s.prog = t.prog := by
  obtain ⟨-, -, -, -, -, hprog, -⟩ := h
  exact hprog

theorem State.AgreeOnLive.len_eq : s.len = t.len := by
  rw [State.len, State.len, h.prog_eq]

theorem State.AgreeOnLive.memMax_eq : s.memMax = t.memMax := by
  obtain ⟨-, -, -, -, -, -, hmax, -⟩ := h
  exact hmax

theorem State.AgreeOnLive.draws_eq : s.draws = t.draws := by
  obtain ⟨-, -, -, -, -, -, -, hdraws, -⟩ := h
  exact hdraws

/-- The agreement on the live cells of the array. -/
theorem State.AgreeOnLive.cell {a : Nat} (hmax : a < s.memMax) (hlive : (a : Int) ≤ s.sp) :
    s.CellAgrees t a := by
  obtain ⟨-, -, -, -, -, -, -, -, -, hcells⟩ := h
  exact hcells a hmax hlive

/-- Two effects that set `sp`, `ip` and the DRAWs alike keep the agreement, when they keep it on
the cells that are live afterwards. -/
theorem State.AgreeOnLive.of_sameOutside {s' t' : State} (hs : s.SameOutside s')
    (ht : t.SameOutside t') (hsp : s'.sp = t'.sp) (hip : s'.ip = t'.ip)
    (hdraws : s'.draws = t'.draws)
    (hcells : ∀ a : Nat, a < s.memMax → (a : Int) ≤ s'.sp → s'.CellAgrees t' a) :
    s'.AgreeOnLive t' := by
  obtain ⟨-, hhp, -, hstatus, hfault, hprog, hmax, -, hheap, -⟩ := h
  refine ⟨hsp, ?_, hip, ?_, ?_, ?_, ?_, hdraws, ?_, fun a ha => hcells a (hs.memMax_eq ▸ ha)⟩
  · rw [hs.hp_eq, ht.hp_eq, hhp]
  · rw [hs, ht]
    exact hstatus
  · rw [hs.faultIp_eq, ht.faultIp_eq, hfault]
  · rw [hs.prog_eq, ht.prog_eq, hprog]
  · rw [hs.memMax_eq, ht.memMax_eq, hmax]
  · rw [hs.heap_eq, ht.heap_eq, hheap]

theorem State.AgreeOnLive.setIp (v : Int) : (s.setIp v).AgreeOnLive (t.setIp v) :=
  h.of_sameOutside (s.sameOutside_refl.setIp v) (t.sameOutside_refl.setIp v) h.sp_eq rfl h.draws_eq
    fun _ hmax hlive => h.cell hmax hlive

/-- Lowering `sp` leaves fewer cells to agree on. -/
theorem State.AgreeOnLive.setSp {v : Int} (hv : v ≤ s.sp) :
    (s.setSp v).AgreeOnLive (t.setSp v) :=
  h.of_sameOutside (s.sameOutside_refl.setSp v) (t.sameOutside_refl.setSp v) rfl h.ip_eq h.draws_eq
    fun _ hmax hlive => h.cell hmax (hlive.trans hv)

theorem State.AgreeOnLive.setStatus (v : BitVec 16) :
    (s.setStatus v).AgreeOnLive (t.setStatus v) := by
  obtain ⟨hsp, hhp, hip, -, hfault, hprog, hmax, hdraws, hheap, hcells⟩ := h
  exact ⟨hsp, hhp, hip, rfl, hfault, hprog, hmax, hdraws, hheap, hcells⟩

theorem State.AgreeOnLive.setFaultIp (v : Int) :
    (s.setFaultIp v).AgreeOnLive (t.setFaultIp v) := by
  obtain ⟨hsp, hhp, hip, hstatus, -, hprog, hmax, hdraws, hheap, hcells⟩ := h
  exact ⟨hsp, hhp, hip, hstatus, rfl, hprog, hmax, hdraws, hheap, hcells⟩

/-- A read of a live cell takes a DRAW in both states or in neither. -/
theorem State.AgreeOnLive.afterRead {a : Int} (hcell : s.CellAgrees t a.toNat) :
    (s.afterRead a).AgreeOnLive (t.afterRead a) :=
  h.of_sameOutside (s.sameOutside_refl.afterRead a) (t.sameOutside_refl.afterRead a)
    (by simpa using h.sp_eq) (by simpa using h.ip_eq) (hcell.afterRead_draws_eq h.draws_eq)
    fun b hmax hlive => (h.cell hmax (by simpa using hlive)).of_kept (s.afterRead_slotAt a b)
      (t.afterRead_slotAt a b)

theorem State.AgreeOnLive.memWrite (a : Int) (v : Cell) :
    (memWrite a v s).AgreeOnLive (memWrite a v t) := by
  refine h.of_sameOutside (s.sameOutside_refl.memWrite a v) (t.sameOutside_refl.memWrite a v)
    (by simpa using h.sp_eq) (by simpa using h.ip_eq) (by simpa using h.draws_eq)
    fun b hmax hlive => ?_
  exact (h.cell hmax (by simpa using hlive)).of_update (memWrite_slotAt a v s b)
    (h.memMax_eq ▸ memWrite_slotAt a v t b)

/-- A push makes one more cell live, and writes it if the array has it. -/
theorem State.AgreeOnLive.push (v : Cell) : (push v s).AgreeOnLive (push v t) := by
  refine h.of_sameOutside (s.sameOutside_refl.push v) (t.sameOutside_refl.push v)
    (by simpa using h.sp_eq) (by simpa using h.ip_eq) (by simpa using h.draws_eq)
    fun b hmax hlive => ?_
  rw [push_sp] at hlive
  have hs := push_slotAt v s b
  have ht := push_slotAt v t b
  rw [← h.memMax_eq, ← h.sp_eq] at ht
  rcases lt_or_eq_of_le hlive with hlow | htop
  · exact (h.cell hmax (by omega)).of_update hs ht
  · have hin : inArray s.memMax (s.sp + 1) = true := (inArray_iff _ _).2 (by omega)
    rw [if_pos ⟨hin, htop⟩] at hs ht
    exact cellAgrees_of_slotAt_eq (hs.trans ht.symm)

theorem State.AgreeOnLive.pushCopy (v : Cell) : (pushCopy v s).AgreeOnLive (pushCopy v t) := by
  unfold Machine.pushCopy
  rw [← h.sp_eq, ← h.memMax_eq]
  split
  · exact (h.memWrite s.sp v).push v
  · exact h.push v

/-- ALLOC leaves undefined what it makes live (43_stack_memory.md R207). -/
theorem State.AgreeOnLive.alloc (k : Int) :
    ((s.setStack (s.stack.undefine (s.sp + 1) (min (s.sp + k) ((s.memMax : Int) - 1)))).setSp
      (s.sp + k)).AgreeOnLive
    ((t.setStack (t.stack.undefine (t.sp + 1) (min (t.sp + k) ((t.memMax : Int) - 1)))).setSp
      (t.sp + k)) := by
  refine h.of_sameOutside ((s.sameOutside_refl.setStack _).setSp _)
    ((t.sameOutside_refl.setStack _).setSp _) (congrArg (· + k) h.sp_eq) h.ip_eq h.draws_eq
    fun b hmax hlive => ?_
  have hs := cellsExposed_undefine s k b
  have ht := cellsExposed_undefine t k b
  rw [← h.sp_eq, ← h.memMax_eq] at ht ⊢
  simp only [State.setSp_sp] at hlive
  split at hs
  · rename_i hexposed
    rw [if_pos hexposed] at ht
    exact cellAgrees_of_undefined hs.1 ht.1
  · rename_i hkept
    rw [if_neg hkept] at ht
    exact (h.cell hmax (by omega)).of_kept hs ht

end

/-! ### Agreement of two execute phases -/

/-- Two execute phases end alike, in states that agree. -/
inductive Effect.Agree : Effect → Effect → Prop
  | done {u v : State} (h : u.AgreeOnLive v) : Effect.Agree (.done u) (.done v)
  | raise {u v : State} (c : Cause) (h : u.AgreeOnLive v) : Effect.Agree (.raise c u) (.raise c v)
  | stop (f : Fault) : Effect.Agree (.stop f) (.stop f)

section
variable {s t : State} (h : s.AgreeOnLive t)
include h

theorem agree_needDepth {n : Int} {e e' : Effect} (he : e.Agree e') :
    (needDepth n s e).Agree (needDepth n t e') := by
  unfold needDepth
  rw [← h.sp_eq]
  split
  · exact .raise _ h
  · exact he

theorem agree_needAddress {a l : Int} {e e' : Effect} (he : a ≤ l → e.Agree e') :
    (needAddress a l s e).Agree (needAddress a l t e') := by
  unfold needAddress
  split
  · exact .raise _ h
  · exact he (by omega)

theorem agree_needTarget {a : Int} {e e' : Effect} (he : e.Agree e') :
    (needTarget a s e).Agree (needTarget a t e') := by
  unfold needTarget
  rw [← h.len_eq]
  split
  · exact .raise _ h
  · exact he

theorem agree_needDivisor {a b : Int} {e e' : Effect} (he : e.Agree e') :
    (needDivisor a b s e).Agree (needDivisor a b t e') := by
  unfold needDivisor
  split
  · exact .raise _ h
  · exact he

omit h in
theorem agree_noCheck (a b : Int) {e e' : Effect} (he : e.Agree e') :
    (noCheck a b s e).Agree (noCheck a b t e') := he

/-- A read of a cell up to `sp` gives one value in both states. -/
theorem agree_readCell {a : Int} {k k' : Cell → State → Effect} (ha : a ≤ s.sp)
    (hk : ∀ v u w, u.AgreeOnLive w → u.sp = s.sp → (k v u).Agree (k' v w)) :
    (readCell a s k).Agree (readCell a t k') := by
  cases hin : inArray s.memMax a with
  | false =>
    rw [readCell_outside s k hin, readCell_outside t k' (h.memMax_eq ▸ hin)]
    exact .stop _
  | true =>
    obtain ⟨h0, hmax⟩ := (inArray_iff _ _).1 hin
    have hcell : s.CellAgrees t a.toNat := h.cell (by omega) (by omega)
    rw [readCell_inside s k hin, readCell_inside t k' (h.memMax_eq ▸ hin),
      ← hcell.readValue_eq h.draws_eq]
    exact hk _ _ _ (h.afterRead hcell) (s.afterRead_sp a)

theorem agree_copyTop : (copyTop s).Agree (copyTop t) := by
  unfold copyTop
  rw [← h.sp_eq]
  exact agree_readCell h (le_refl _) fun v _ _ hu _ => .done (hu.pushCopy v)

theorem agree_binop {n : Int} {check : Int → Int → State → Effect → Effect}
    {f : Int → Int → Int}
    (hcheck : ∀ a b {u w : State} {e e' : Effect}, u.AgreeOnLive w → e.Agree e' →
      (check a b u e).Agree (check a b w e')) : (binop n check f s).Agree (binop n check f t) := by
  unfold binop
  rw [← h.sp_eq]
  refine agree_needDepth h <| agree_readCell h (by omega) fun _ u w hu _ => ?_
  rw [← hu.sp_eq]
  refine agree_readCell hu (le_refl _) fun _ u' w' hu' _ => hcheck _ _ hu' ?_
  rw [← hu'.sp_eq]
  exact .done ((hu'.setSp (by omega)).memWrite _ _)

theorem agree_unop (f : Int → Int) : (unop f s).Agree (unop f t) := by
  unfold unop
  rw [← h.sp_eq]
  refine agree_needDepth h <| agree_readCell h (le_refl _) fun _ u w hu _ => ?_
  rw [← hu.sp_eq]
  exact .done (hu.memWrite _ _)

theorem agree_loadEffect : (loadEffect s).Agree (loadEffect t) := by
  unfold loadEffect
  rw [← h.sp_eq]
  refine agree_needDepth h <| agree_readCell h (le_refl _) fun _ u w hu _ => ?_
  rw [← hu.sp_eq]
  refine agree_needAddress hu fun ha => agree_readCell hu ha fun _ u' w' hu' _ => ?_
  rw [← hu'.sp_eq]
  exact .done (hu'.memWrite _ _)

theorem agree_storeEffect : (storeEffect s).Agree (storeEffect t) := by
  unfold storeEffect
  rw [← h.sp_eq]
  refine agree_needDepth h <| agree_readCell h (le_refl _) fun _ u w hu _ => ?_
  rw [← hu.sp_eq]
  refine agree_needAddress hu fun _ => agree_readCell hu (by omega) fun v u' w' hu' _ => ?_
  rw [← hu'.sp_eq]
  exact .done ((hu'.memWrite _ v).setSp (by rw [memWrite_sp]; omega))

theorem agree_loadaEffect (a : Int) : (loadaEffect a s).Agree (loadaEffect a t) := by
  unfold loadaEffect
  rw [← h.sp_eq]
  refine agree_needAddress h fun ha => ?_
  split
  · exact agree_copyTop h
  · exact agree_readCell h ha fun v _ _ hu _ => .done (hu.push v)

theorem agree_storeaEffect (a : Int) : (storeaEffect a s).Agree (storeaEffect a t) := by
  unfold storeaEffect
  rw [← h.sp_eq]
  exact agree_needDepth h <| agree_needAddress h fun _ =>
    agree_readCell h (le_refl _) fun v _ _ hu _ => .done (hu.memWrite a v)

theorem agree_popEffect : (popEffect s).Agree (popEffect t) := by
  unfold popEffect
  rw [← h.sp_eq]
  exact agree_needDepth h (.done (h.setSp (by omega)))

theorem agree_jumpzEffect (a : Int) : (jumpzEffect a s).Agree (jumpzEffect a t) := by
  unfold jumpzEffect
  rw [← h.sp_eq]
  refine agree_needTarget h <| agree_needDepth h <|
    agree_readCell h (le_refl _) fun c u w hu _ => ?_
  rw [← hu.sp_eq]
  refine .done ?_
  split
  · exact (hu.setIp a).setSp (by rw [State.setIp_sp]; omega)
  · exact hu.setSp (by omega)

theorem agree_jumpiEffect (a : Int) : (jumpiEffect a s).Agree (jumpiEffect a t) := by
  unfold jumpiEffect
  rw [← h.sp_eq]
  refine agree_needTarget h <| agree_needDepth h <|
    agree_readCell h (le_refl _) fun o u w hu _ => ?_
  rw [← hu.sp_eq]
  exact .done ((hu.setIp _).setSp (by rw [State.setIp_sp]; omega))

theorem agree_allocEffect (k : Int) : (allocEffect k s).Agree (allocEffect k t) := by
  rcases lt_or_ge (s.sp + k) (-1) with hlow | hdepth
  · rw [allocEffect_underflow hlow, allocEffect_underflow (h.sp_eq ▸ hlow)]
    exact .raise _ h
  · rw [allocEffect_of_depth hdepth, allocEffect_of_depth (h.sp_eq ▸ hdepth)]
    exact .done (h.alloc k)

/-- Every instruction looks at live, defined cells only. -/
theorem effectOf_agree (i : Instr) : (effectOf i s).Agree (effectOf i t) := by
  cases i
  case loadc => exact .done (h.push _)
  case add | sub | mul | and | or | xor | eq | neq | le | leq | gr | geq =>
    exact agree_binop h fun a b _ _ _ _ _ he => agree_noCheck a b he
  case div | mod => exact agree_binop h fun _ _ _ _ _ _ hu he => agree_needDivisor hu he
  case not | neg => exact agree_unop h _
  case load => exact agree_loadEffect h
  case store => exact agree_storeEffect h
  case loada a => exact agree_loadaEffect h a
  case storea a => exact agree_storeaEffect h a
  case pop => exact agree_popEffect h
  case jump a => exact agree_needTarget h (.done (h.setIp a))
  case jumpz a => exact agree_jumpzEffect h a
  case jumpi a => exact agree_jumpiEffect h a
  case dup => exact agree_needDepth h (agree_copyTop h)
  case alloc k => exact agree_allocEffect h k

/-! ### Agreement of two steps -/

theorem State.AgreeOnLive.faultEntry (c : Cause) (opc : BitVec 8) (i : Int) :
    (faultEntry c opc i s).AgreeOnLive (faultEntry c opc i t) :=
  (h.setStatus _).setFaultIp i

theorem State.AgreeOnLive.statusUpdate : (statusUpdate s).AgreeOnLive (statusUpdate t) := by
  have hstatus : (Machine.statusUpdate t).status = (Machine.statusUpdate s).status := by
    simp only [Machine.statusUpdate, State.setRunState_status, State.fop, State.fcode, h.status_eq,
      h.ip_eq, h.len_eq]
  rw [statusUpdate_eq s, statusUpdate_eq t, hstatus]
  exact h.setStatus _

theorem State.AgreeOnLive.finish (opc : BitVec 8) (i : Int) :
    (finish opc i s).AgreeOnLive (finish opc i t) := by
  have hhp : s.hp = t.hp := by
    obtain ⟨-, hhp, -⟩ := h
    exact hhp
  have hover : overCapacity t = overCapacity s := by
    rw [overCapacity, overCapacity, h.memMax_eq, h.sp_eq, hhp]
  have hip : ipOutOfRange t = ipOutOfRange s := by
    rw [ipOutOfRange, ipOutOfRange, h.ip_eq, h.len_eq]
  rw [Machine.finish, Machine.finish, hover, hip]
  split
  · exact h.faultEntry _ _ _
  · split
    · exact h.faultEntry _ _ _
    · exact h.statusUpdate

/-- `exec` answers two next states that agree, or stops both alike. -/
theorem exec_agree (i : Instr) :
    (∃ s' t', exec i s = .next s' ∧ exec i t = .next t' ∧ s'.AgreeOnLive t') ∨
    (∃ f, exec i s = .fault f ∧ exec i t = .fault f) := by
  have heff := effectOf_agree (h.setIp (s.ip + 1)) i
  rw [exec_eq_runInstr, exec_eq_runInstr, runInstr, runInstr, ← h.ip_eq]
  generalize effectOf i (s.setIp (s.ip + 1)) = e, effectOf i (t.setIp (s.ip + 1)) = e' at heff ⊢
  cases heff with
  | done hu => exact .inl ⟨_, _, rfl, rfl, hu.finish _ _⟩
  | raise c hu => exact .inl ⟨_, _, rfl, rfl, hu.faultEntry _ _ _⟩
  | stop f => exact .inr ⟨f, rfl, rfl⟩

theorem State.AgreeOnLive.fetch_eq : fetch t = fetch s := by
  rw [fetch, fetch, State.progRd, State.progRd, h.ip_eq, h.prog_eq]

theorem State.AgreeOnLive.isRunning_eq : t.isRunning = s.isRunning := by
  rw [State.isRunning, State.isRunning, State.stateField, State.stateField, h.status_eq]

end

end Sys2Proof.Machine

namespace Sys2Proof.Proofs

open Sys2Proof.Machine

/-- Settles O42: the gate, the fetch and the decode look at registers alone; `exec` keeps the
agreement. -/
theorem deadAndUndefinedContentsAreInvisible :
    Obligations.DeadAndUndefinedContentsAreInvisible := by
  intro s t h
  rw [step, step, h.isRunning_eq, h.fetch_eq]
  split
  · cases fetch s with
    | none => exact .inr ⟨_, rfl, rfl⟩
    | some w =>
      cases hdecode : decode w with
      | ok i => simpa only [hdecode] using exec_agree h i
      | error e =>
        simp only [hdecode]
        refine .inl ⟨_, _, rfl, rfl, ?_⟩
        rw [unsupported, unsupported, ← h.ip_eq]
        exact (h.setIp _).faultEntry _ _ _
  · exact .inl ⟨s, t, rfl, rfl, h⟩

end Sys2Proof.Proofs
end

section
/-! MemRead, MemWrite and the inspection surface (20_memory.md R53 to R57, 10_state.md R32, R33):
the statements about them, from the laws of the cell arrays. -/

namespace Sys2Proof.Machine

theorem State.isDefined_of_slotAt {s : State} {a : Nat} {v : Cell} {d : Bool}
    (h : s.slotAt a = some ⟨v, d⟩) : s.isDefined a = d := by
  rw [State.isDefined, h]

theorem inArray_natCast {n a : Nat} (h : a < n) : inArray n a = true :=
  (inArray_iff _ _).2 ⟨Int.natCast_nonneg a, Int.ofNat_lt.2 h⟩

theorem memRead_inside {s : State} {a : Nat} (h : a < s.memMax) :
    memRead a s = some (s.readValue a, s.afterRead a) :=
  if_pos (inArray_natCast h)

theorem memWrite_outside {a : Int} (v : Cell) {s : State} (h : a < 0 ∨ (s.memMax : Int) ≤ a) :
    memWrite a v s = s := by
  refine if_neg ?_
  rw [inArray_iff]
  omega

/-! ### STACK_RD (10_state.md R32) -/

/-- STACK_RD shows some value of every cell of the array. -/
theorem stackRd_ne_none {s : State} (k : Nat) {a : Int} (h : inArray s.memMax a = true) :
    s.stackRd k a ≠ none := by
  rw [State.stackRd, if_pos h]
  cases s.slotAt a.toNat <;> exact Option.some_ne_none _

/-- STACK_RD shows the value of a defined cell, wherever `sp` is. -/
theorem stackRd_defined {s : State} (k : Nat) {a : Nat} {v : Cell} (ha : a < s.memMax)
    (h : s.slotAt a = some ⟨v, true⟩) : s.stackRd k a = some v := by
  rw [State.stackRd, if_pos (inArray_natCast ha), Int.toNat_natCast, h]
  rfl

end Sys2Proof.Machine

namespace Sys2Proof.Proofs

open Sys2Proof.Machine

/-- Settles O39: the `defined` bit decides between the value and the next DRAW. -/
theorem memReadGivesTheValueOrADraw : Obligations.MemReadGivesTheValueOrADraw := by
  intro a s ha
  rw [memRead_inside ha]
  constructor
  · intro v hslot
    rw [State.readValue_defined (a := a) hslot,
      State.afterRead_defined (a := a) (State.isDefined_of_slotAt hslot)]
  · intro hundefined
    rw [State.readValue_undefined (a := a) hundefined,
      State.afterRead_undefined (a := a) hundefined]
    rfl

/-- Settles O40: MemWrite replaces the stack array at most, by one put inside the array. -/
theorem memWriteWritesOneCellOrNothing : Obligations.MemWriteWritesOneCellOrNothing := by
  intro a v s
  exact ⟨⟨_, memWrite_eq a v s⟩,
    fun h0 ha => cellWritten_memWrite v ((inArray_iff _ _).2 ⟨h0, ha⟩),
    fun h => memWrite_outside v h⟩

/-- Settles O41: the written cell reads as its value, another one as before the write. -/
theorem readAfterWrite : Obligations.ReadAfterWrite := by
  intro a b v s ha hb
  have hin : inArray s.memMax a = true := inArray_natCast ha
  refine ⟨(memWrite a v s).afterRead b, ?_, ?_⟩
  · rw [memRead_inside (by rwa [memWrite_memMax]), memWrite_readValue a v s (Int.natCast_nonneg b)]
    simp only [hin, true_and, Nat.cast_inj]
  · rw [State.afterRead_slotAt, memWrite_slotAt, if_pos ⟨hin, rfl⟩]

/-- Settles O48: both transactions answer the state they were sent to. -/
theorem inspectionReadsWithoutChange : Obligations.InspectionReadsWithoutChange := by
  intro s
  refine ⟨rfl, fun k a => ⟨_, rfl, fun h0 ha => ?_⟩, fun k a v ha hslot => ?_⟩
  · exact stackRd_ne_none k ((inArray_iff _ _).2 ⟨h0, ha⟩)
  · rw [transact, stackRd_defined k ha hslot]

end Sys2Proof.Proofs
end

section
/-! Values (00_scope.md R10, 41_arithmetic.md R143 to R147): the signed value of a written cell,
division toward zero with its remainder, and DIV and MOD as the rule of divisions; with them the
statements about results, about division and about the two instructions. -/

namespace Sys2Proof.Machine

open Sys2Proof.Statements

/-! ### Results (00_scope.md R10) -/

theorem argInRange_wrap (v : Int) : argInRange (wrap v) = true := by
  rw [argInRange_iff, wrap]
  omega

/-- A result is read back as its `wrap`. -/
theorem toInt_cellOf (v : Int) : (cellOf v).toInt = wrap v :=
  toInt_ofInt_of_argInRange (argInRange_wrap v)

theorem toInt_cellOf_of_argInRange {v : Int} (h : argInRange v = true) : (cellOf v).toInt = v := by
  rw [cellOf_eq, toInt_ofInt_of_argInRange h]

/-! ### Division toward zero (41_arithmetic.md R147) -/

theorem rem_eq_tmod (a b : Int) : rem a b = a.tmod b := by
  rw [rem, truncdiv_eq_tdiv, Int.tmod_def]

theorem natAbs_truncdiv (a b : Int) : (truncdiv a b).natAbs = a.natAbs / b.natAbs := by
  rw [truncdiv_eq_tdiv, Int.natAbs_tdiv]
  rfl

theorem natAbs_rem_lt (a : Int) {b : Int} (hb : b ≠ 0) : (rem a b).natAbs < b.natAbs := by
  rw [rem_eq_tmod, Int.natAbs_tmod]
  exact Nat.mod_lt _ (Int.natAbs_pos.2 hb)

theorem truncdiv_nonneg {a b : Int} (h : 0 ≤ a * b) : 0 ≤ truncdiv a b := by
  rw [truncdiv_eq_tdiv]
  rcases mul_nonneg_iff.1 h with ⟨ha, hb⟩ | ⟨ha, hb⟩
  · exact Int.tdiv_nonneg ha hb
  · exact Int.tdiv_nonneg_of_nonpos_of_nonpos ha hb

theorem truncdiv_nonpos {a b : Int} (h : a * b ≤ 0) : truncdiv a b ≤ 0 := by
  have hneg : 0 ≤ truncdiv (-a) b := truncdiv_nonneg (by rw [Int.neg_mul]; omega)
  rw [truncdiv_eq_tdiv, Int.neg_tdiv] at hneg
  rw [truncdiv_eq_tdiv]
  omega

theorem rem_nonneg {a : Int} (b : Int) (ha : 0 ≤ a) : 0 ≤ rem a b := by
  rw [rem_eq_tmod]
  exact Int.tmod_nonneg b ha

theorem rem_nonpos {a : Int} (b : Int) (ha : a ≤ 0) : rem a b ≤ 0 := by
  have hneg : 0 ≤ rem (-a) b := rem_nonneg b (by omega)
  rw [rem_eq_tmod, Int.neg_tmod] at hneg
  rw [rem_eq_tmod]
  omega

/-- The one quotient of two cells that no cell holds is `MIN / -1`. -/
theorem argInRange_truncdiv {a b : Int} (ha : argInRange a = true) (hb : b ≠ 0)
    (hmin : ¬ (a = cellMin ∧ b = -1)) : argInRange (truncdiv a b) = true := by
  obtain ⟨halow, hahigh⟩ := (argInRange_iff a).1 ha
  have habs := natAbs_truncdiv a b
  by_cases hone : b = 1
  · rw [hone, truncdiv_eq_tdiv, Int.tdiv_one]
    exact ha
  · have hmagnitude : a.natAbs / b.natAbs ≤ 2147483647 := by
      by_cases hminus : b = -1
      · have hne : a ≠ -2147483648 := fun h => hmin ⟨h, hminus⟩
        exact (Nat.div_le_self _ _).trans (by omega)
      · have hhalf : a.natAbs / b.natAbs ≤ a.natAbs / 2 :=
          Nat.div_le_div_left (by omega) two_pos
        omega
    exact (argInRange_iff _).2 (by omega)

theorem toInt_cellOf_truncdiv {a b : Int} (ha : argInRange a = true) (hb : b ≠ 0) :
    (cellOf (truncdiv a b)).toInt =
      if a = cellMin ∧ b = -1 then cellMin else truncdiv a b := by
  split
  · rename_i hmin
    rw [hmin.1, hmin.2]
    decide
  · rename_i hmin
    exact toInt_cellOf_of_argInRange (argInRange_truncdiv ha hb hmin)

/-! ### DIV and MOD (41_arithmetic.md R143, R144) -/

/-- A BINOP of depth 1 that checks its divisor obeys the rule of divisions, for any description `f`
of its function `g`. -/
theorem divisionRule_of_binop {i : Instr} {opc : Nat} {f g : Int → Int → Int}
    (hopc : (encode i).toNat = opc) (heff : effectOf i = binop 1 needDivisor g)
    (hfun : ∀ a b, g a b = f a b) : DivisionRule i opc f := by
  refine ⟨hopc, fun s hat => ⟨fun hlow => ?_, fun hdepth hzero => ?_, fun hdepth hnonzero => ?_⟩⟩
  · have hraise : effectOf i (s.setIp (s.ip + 1)) = .raise .stackUnderflow (s.setIp (s.ip + 1)) :=
      heff ▸ binop_underflow needDivisor g hlow
    exact opcOf_eq_ofNat hopc ▸ preFaults_of_raise hraise
  · have ⟨_, hmax, _⟩ := hat
    have hraise := binop_inside needDivisor g (s := s.setIp (s.ip + 1)) hdepth hdepth hmax
    simp only [State.setIp_sp, State.setIp_afterRead, State.setIp_readValue, hzero,
      needDivisor_fail, ← heff] at hraise
    exact opcOf_eq_ofNat hopc ▸ preFaults_of_raise hraise
  · have hcompletes := exec_binop_completes heff hat hdepth hdepth
      fun u rest => needDivisor_pass u rest hnonzero
    rwa [hfun] at hcompletes

end Sys2Proof.Machine

namespace Sys2Proof.Proofs

open Sys2Proof.Machine

/-- Settles O44: a cell holds `wrap` of the result, which is congruent to it and in range. -/
theorem resultsWrapToSignedCells : Obligations.ResultsWrapToSignedCells := by
  intro v
  obtain ⟨hlow, hhigh⟩ := (argInRange_iff _).1 (argInRange_wrap v)
  rw [toInt_cellOf]
  refine ⟨rfl, hlow, hhigh, ?_⟩
  rw [wrap]
  omega

/-- Settles O45: `truncdiv` and `rem` are the library's quotient and remainder toward zero. -/
theorem divisionRoundsTowardZero : Obligations.DivisionRoundsTowardZero := by
  intro a b halow hahigh hblow hbhigh hb
  have ha : argInRange a = true := (argInRange_iff a).2 ⟨halow, hahigh⟩
  have hsum : a = b * truncdiv a b + rem a b := (add_sub_cancel _ _).symm
  have hlt := natAbs_rem_lt a hb
  have hbrange : -2147483648 ≤ b ∧ b ≤ 2147483647 := ⟨hblow, hbhigh⟩
  have hrange : -2147483648 ≤ rem a b ∧ rem a b ≤ 2147483647 := by omega
  exact ⟨hsum, natAbs_truncdiv a b, truncdiv_nonneg, truncdiv_nonpos, hlt, rem_nonneg b,
    rem_nonpos b, hrange.1, hrange.2, toInt_cellOf_truncdiv ha hb⟩

/-- Settles O2: both are BINOPs of depth 1 that check the divisor after the depth. -/
theorem divModTruncateAndFaultOnZero : Obligations.DivModTruncateAndFaultOnZero :=
  ⟨divisionRule_of_binop (by decide) rfl truncdiv_eq_tdiv,
    divisionRule_of_binop (by decide) rfl rem_eq_tmod⟩

end Sys2Proof.Proofs
end

section
/-! LOAD, STORE, LOADA and DUP (43_stack_memory.md R201 to R203, R206): each execute phase by its
pre-checks, the copy of the top cell as the rule of copies; and the statements about the four
instructions and about DUP followed by POP. -/

namespace Sys2Proof.Machine

open Sys2Proof.Statements

/-! ### LOAD (43_stack_memory.md R201) -/

theorem loadEffect_underflow {s : State} (hlow : s.sp < 0) :
    loadEffect s = .raise .stackUnderflow s := needDepth_fail _ hlow

/-- The address is read before it is checked. -/
theorem loadEffect_outside {s : State} (hdepth : 0 ≤ s.sp) (hmax : s.sp < (s.memMax : Int))
    (ha : s.sp < (s.readValue s.sp).toInt ∨ (s.readValue s.sp).toInt < 0) :
    loadEffect s = .raise .illegalStackMemoryAccess (s.afterRead s.sp) := by
  rw [loadEffect, needDepth_pass _ hdepth, readCell_inside s _ ((inArray_iff _ _).2 ⟨hdepth, hmax⟩),
    State.afterRead_sp, needAddress_fail _ _ ha]

theorem loadEffect_inside {s : State} (hmax : s.sp < (s.memMax : Int))
    (h0 : 0 ≤ (s.readValue s.sp).toInt) (ha : (s.readValue s.sp).toInt ≤ s.sp) :
    loadEffect s = .done (memWrite s.sp ((s.afterRead s.sp).readValue (s.readValue s.sp).toInt)
      ((s.afterRead s.sp).afterRead (s.readValue s.sp).toInt)) := by
  have hdepth : 0 ≤ s.sp := h0.trans ha
  have hin : inArray (s.afterRead s.sp).memMax (s.readValue s.sp).toInt = true := by
    rw [inArray_iff, State.afterRead_memMax]
    omega
  rw [loadEffect, needDepth_pass _ hdepth, readCell_inside s _ ((inArray_iff _ _).2 ⟨hdepth, hmax⟩),
    State.afterRead_sp, needAddress_pass _ _ h0 ha, readCell_inside _ _ hin, State.afterRead_sp,
    State.afterRead_sp]

/-! ### STORE (43_stack_memory.md R202) -/

theorem storeEffect_underflow {s : State} (hlow : s.sp < 1) :
    storeEffect s = .raise .stackUnderflow s := needDepth_fail _ hlow

/-- The address is read before it is checked, and the value after it. -/
theorem storeEffect_outside {s : State} (hdepth : 1 ≤ s.sp) (hmax : s.sp < (s.memMax : Int))
    (ha : s.sp - 1 < (s.readValue s.sp).toInt ∨ (s.readValue s.sp).toInt < 0) :
    storeEffect s = .raise .illegalStackMemoryAccess (s.afterRead s.sp) := by
  have hin : inArray s.memMax s.sp = true := (inArray_iff _ _).2 ⟨by omega, hmax⟩
  rw [storeEffect, needDepth_pass _ hdepth, readCell_inside s _ hin, State.afterRead_sp,
    needAddress_fail _ _ ha]

theorem storeEffect_inside {s : State} (hdepth : 1 ≤ s.sp) (hmax : s.sp < (s.memMax : Int))
    (h0 : 0 ≤ (s.readValue s.sp).toInt) (ha : (s.readValue s.sp).toInt ≤ s.sp - 1) :
    storeEffect s = .done (memWrite (s.readValue s.sp).toInt
      ((s.afterRead s.sp).readValue (s.sp - 1))
      (((s.afterRead s.sp).afterRead (s.sp - 1)).setSp (s.sp - 2))) := by
  have hin : inArray s.memMax s.sp = true := (inArray_iff _ _).2 ⟨by omega, hmax⟩
  have hin' : inArray (s.afterRead s.sp).memMax (s.sp - 1) = true := by
    rw [inArray_iff, State.afterRead_memMax]
    omega
  rw [storeEffect, needDepth_pass _ hdepth, readCell_inside s _ hin, State.afterRead_sp,
    needAddress_pass _ _ h0 ha, readCell_inside _ _ hin', memWrite_setSp, State.afterRead_sp,
    State.afterRead_sp]

/-! ### LOADA (43_stack_memory.md R203) -/

theorem loadaEffect_outside {a : Int} {s : State} (ha : s.sp < a ∨ a < 0) :
    loadaEffect a s = .raise .illegalStackMemoryAccess s := needAddress_fail s _ ha

theorem loadaEffect_below {a : Int} {s : State} (h0 : 0 ≤ a) (ha : a < s.sp)
    (hmax : s.sp < (s.memMax : Int)) :
    loadaEffect a s = .done (push (s.readValue a) (s.afterRead a)) := by
  have hin : inArray s.memMax a = true := (inArray_iff _ _).2 ⟨h0, by omega⟩
  rw [loadaEffect, needAddress_pass s _ h0 ha.le, if_neg ha.ne, readCell_inside s _ hin]

/-- LOADA of the top cell is DUP's copy. -/
theorem loadaEffect_top {s : State} (h0 : 0 ≤ s.sp) : loadaEffect s.sp s = copyTop s := by
  rw [loadaEffect, needAddress_pass s _ h0 (le_refl _), if_pos rfl]

/-! ### The copy of the top cell (43_stack_memory.md R206) -/

/-- At full capacity a copy writes neither cell. -/
theorem pushCopy_cellsKept (v : Cell) {s : State} (hfull : s.sp + 1 = (s.memMax : Int)) :
    CellsKept s (pushCopy v s) := by
  intro b
  rw [pushCopy_slotAt, if_neg]
  omega

/-- An instruction whose effect is the copy of the top cell obeys the rule of copies. -/
theorem copyRule_of_copyTop {i : Instr} {s : State} (hat : s.AtInstruction) (h0 : 0 ≤ s.sp)
    (heff : effectOf i (s.setIp (s.ip + 1)) = copyTop (s.setIp (s.ip + 1))) :
    CopyRule i (opcOf i) s (s.readValue s.sp) (s.afterRead s.sp).draws := by
  have ⟨_, hmax, _⟩ := hat
  have hin : inArray s.memMax s.sp = true := (inArray_iff _ _).2 ⟨h0, hmax⟩
  have hdone := heff.trans (copyTop_inside hin)
  simp only [State.setIp_sp, State.setIp_afterRead, State.setIp_readValue] at hdone
  have hsame := (effectOf_done hdone).of_setIp
  constructor
  · intro hroom
    obtain ⟨t, hexec, hcompleted, hkept⟩ := exec_completes hdone
      (hat.passesPostCheck_of_sp_lt hsame (by simpa using hroom) (by simp))
    exact ⟨t, hexec, by simpa using hcompleted, fun b => by
      simp [hkept b, pushCopy_slotAt, hroom]⟩
  · intro hfull
    obtain ⟨t, hexec, hfaulted, hkept⟩ := exec_overflows hdone (by simp [hfull])
    exact ⟨t, hexec, by simpa using hfaulted, fun b => by
      rw [hkept b, pushCopy_cellsKept _ (by simpa using hfull) b]
      simp⟩

theorem dup_copyRule {s : State} (hat : s.AtInstruction) (h0 : 0 ≤ s.sp) :
    CopyRule .dup (opcOf .dup) s (s.readValue s.sp) (s.afterRead s.sp).draws :=
  copyRule_of_copyTop hat h0 (needDepth_pass _ h0)

/-- A defined top cell already holds what is copied into it. -/
theorem State.slotAt_of_isDefined {s : State} {a : Nat} (h : s.isDefined a = true) :
    s.slotAt a = some ⟨s.readValue a, true⟩ := by
  unfold State.isDefined at h
  cases hslot : s.slotAt a with
  | none => simp [hslot] at h
  | some x =>
    obtain ⟨v, d⟩ := x
    obtain rfl : d = true := by simpa [hslot] using h
    rw [State.readValue_defined (a := a) hslot]

end Sys2Proof.Machine

namespace Sys2Proof.Proofs

open Sys2Proof.Machine Sys2Proof.Statements

/-- Settles O9: the depth check, the read of the address, its check, and one write to the top. -/
theorem loadReplacesAddressByCellValue : Obligations.LoadReplacesAddressByCellValue := by
  refine ⟨by decide, fun s hat => ⟨fun hlow => ?_, fun hdepth ha => ?_, fun hdepth h0 ha => ?_⟩⟩
  · exact preFaults_of_raise (i := .load) (loadEffect_underflow hlow)
  · have ⟨_, hmax, _⟩ := hat
    have hraise := loadEffect_outside (s := s.setIp (s.ip + 1)) hdepth hmax ha
    rw [State.setIp_afterRead] at hraise
    exact preFaults_of_raise (i := .load) hraise
  · have ⟨_, hmax, _⟩ := hat
    have hdone := loadEffect_inside (s := s.setIp (s.ip + 1)) hmax h0 ha
    simp only [State.setIp_sp, State.setIp_afterRead, State.setIp_readValue] at hdone
    simpa using exec_completes_memWrite (i := .load) hdone hat (by simp) (by simp)
      (fun b => by simp) ⟨hdepth, hmax⟩

/-- Settles O10: the depth check, the read of the address, its check, the read of the value, and
one write below the two operands. -/
theorem storePopsBothAndWritesTheCell : Obligations.StorePopsBothAndWritesTheCell := by
  refine ⟨by decide, fun s hat => ⟨fun hlow => ?_, fun hdepth ha => ?_, fun hdepth h0 ha => ?_⟩⟩
  · exact preFaults_of_raise (i := .store) (storeEffect_underflow hlow)
  · have ⟨_, hmax, _⟩ := hat
    have hraise := storeEffect_outside (s := s.setIp (s.ip + 1)) hdepth hmax ha
    rw [State.setIp_afterRead] at hraise
    exact preFaults_of_raise (i := .store) hraise
  · have ⟨_, hmax, _⟩ := hat
    have hdone := storeEffect_inside (s := s.setIp (s.ip + 1)) hdepth hmax h0 ha
    simp only [State.setIp_sp, State.setIp_afterRead, State.setIp_readValue] at hdone
    simpa using exec_completes_memWrite (i := .store) hdone hat (by simp) (by simp)
      (fun b => by simp) ⟨h0, by omega⟩

/-- Settles O11: below the top LOADA is a push of the value read, at the top DUP's copy. -/
theorem loadaPushesTheNamedCell : Obligations.LoadaPushesTheNamedCell := by
  intro a _
  refine ⟨wordWithArg_of_arg rfl, fun s hat => ⟨fun ha => ?_, fun h0 ha => ?_, fun h0 ha => ?_⟩⟩
  · exact preFaults_of_raise (i := .loada a) (loadaEffect_outside ha)
  · have ⟨_, hmax, _⟩ := hat
    have hdone := loadaEffect_below (s := s.setIp (s.ip + 1)) h0 ha hmax
    have hreads := (State.sameButDraws_refl (s.setIp (s.ip + 1))).afterRead a
    rw [State.setIp_afterRead] at hdone hreads
    exact pushRule_of_push (i := .loada a) (u := (s.afterRead a).setIp (s.ip + 1)) hdone hat hreads
  · subst ha
    exact copyRule_of_copyTop (i := .loada s.sp) hat h0
      (loadaEffect_top (s := s.setIp (s.ip + 1)) h0)

/-- Settles O14: behind the depth check DUP is the copy of the top cell. -/
theorem dupPushesACopyOfTop : Obligations.DupPushesACopyOfTop :=
  ⟨by decide, fun _ hat => ⟨fun hlow => preFaults_of_raise (i := .dup) (needDepth_fail _ hlow),
    dup_copyRule hat⟩⟩

/-- Settles O43: DUP writes the top cell and the one above it, and POP keeps every cell. -/
theorem dupThenPopRestoresLiveCells : Obligations.DupThenPopRestoresLiveCells := by
  intro s hat hdepth hroom hnext
  have ⟨_, _, hhp, hip, _⟩ := hat
  obtain ⟨t, hdup, ⟨hsp', hip', hhp', -, hprog', hmax', -⟩, hcells⟩ :=
    (dup_copyRule hat hdepth).1 hroom
  have hlen' : t.len = s.len := by rw [State.len, State.len, hprog']
  have hat' : t.AtInstruction := by
    rw [State.AtInstruction, hsp', hip', hhp', hmax', hlen']
    omega
  obtain ⟨u, hpop, ⟨hsp'', -⟩, hkept⟩ :=
    (popLowersSpAndKeepsCells.2 t hat').2 (by omega)
  have hvalue : ∀ a : Nat, (a : Int) ≤ s.sp →
      u.slotAt a = if (a : Int) = s.sp then some ⟨s.readValue s.sp, true⟩ else s.slotAt a := by
    intro a ha
    have habove : (a : Int) ≠ s.sp + 1 := by omega
    simp only [hkept a, hcells a, habove, or_false]
  refine ⟨t, u, hdup, hpop, by omega, fun a ha => ⟨hvalue a ha, fun hdefined => ?_⟩⟩
  rw [hvalue a ha]
  split
  · rename_i htop
    rw [State.slotAt_of_isDefined hdefined, htop]
  · rfl

end Sys2Proof.Proofs
end

section
/-! RUN (40_dispatch.md R113, R115, R116): the loop outside RUNNING, one turn of it, and its course
over a program without jumps; and the statements about RUN. -/

namespace Sys2Proof.Machine

open Sys2Proof.Statements

/-! ### The loop and its answer -/

theorem State.isRunning_eq_false {s : State} (h : s.stateField ≠ RunState.running.code) :
    s.isRunning = false :=
  Bool.eq_false_iff.2 (mt s.isRunning_iff.mp h)

theorem runLoop_of_not_running {s : State} (h : s.stateField ≠ RunState.running.code) (n : Nat) :
    runLoop n s = .next s := by
  cases n with
  | zero => rfl
  | succ n => simp [runLoop, State.isRunning_eq_false h]

theorem runLoop_succ {s t : State} (hrun : s.stateField = RunState.running.code)
    (hstep : step s = .next t) (n : Nat) : runLoop (n + 1) s = runLoop n t := by
  simp [runLoop, s.isRunning_iff.mpr hrun, hstep]

/-- A loop that answers has taken a first step that answers. -/
theorem exists_step_of_runLoop_succ {s t : State} {n : Nat}
    (hrun : s.stateField = RunState.running.code) (h : runLoop (n + 1) s = .next t) :
    ∃ u, step s = .next u := by
  rw [runLoop, if_pos (s.isRunning_iff.mpr hrun)] at h
  cases hstep : step s with
  | next u => exact ⟨u, rfl⟩
  | fault f => simp [hstep] at h
  | refused r => simp [hstep] at h

theorem State.runAnswer_of_not_running {s : State} (h : s.stateField ≠ RunState.running.code) :
    s.runAnswer =
      if s.stateField = RunState.halted.code then some .success else some (.fault s.fcode) := by
  simp [State.runAnswer, State.isRunning_eq_false h]

theorem State.runAnswer_of_running {s : State} (h : s.stateField = RunState.running.code) :
    s.runAnswer = none := by
  simp [State.runAnswer, s.isRunning_iff.mpr h]

/-- A loop of `m + n` steps goes on from where a loop of `m` steps stood. -/
theorem runLoop_add {s t : State} (m n : Nat) (h : runLoop m s = .next t) :
    runLoop (m + n) s = runLoop n t := by
  induction m generalizing s with
  | zero =>
    cases h
    rw [Nat.zero_add]
  | succ m ih =>
    rw [Nat.succ_add]
    by_cases hrun : s.stateField = RunState.running.code
    · obtain ⟨u, hstep⟩ := exists_step_of_runLoop_succ hrun h
      rw [runLoop_succ hrun hstep] at h ⊢
      exact ih h
    · rw [runLoop_of_not_running hrun] at h
      cases h
      rw [runLoop_of_not_running hrun, runLoop_of_not_running hrun]

/-! ### Programs without jumps (40_dispatch.md R116) -/

/-- No word of the program decodes to a jump. -/
def JumpFree (words : List InstrWord) : Prop := ∀ w ∈ words, ∀ i, decode w = .ok i → ¬ IsJump i

theorem mem_prog_of_fetch {s : State} {w : InstrWord} (h : fetch s = some w) : w ∈ s.prog := by
  rw [fetch, State.progRd] at h
  split at h
  · exact List.mem_of_getElem? h
  · cases h

/-- A step of a jump-free program goes on at `ip + 1`, faulted or not. -/
theorem step_ip_of_jumpFree {s t : State} (hfree : JumpFree s.prog)
    (hrun : s.stateField = RunState.running.code) (hstep : step s = .next t) :
    t.ip = s.ip + 1 := by
  obtain ⟨w, hfetch, ⟨i, hdecode, hexec⟩ | ⟨-, rfl⟩⟩ := (step_next_iff_of_running hrun).mp hstep
  · have hjump : ¬ IsJump i := hfree w (mem_prog_of_fetch hfetch) i hdecode
    exact Proofs.onlyJumpsLeaveTheSequence i s t hjump hexec
  · rfl

theorem step_len_eq {s t : State} (hstep : step s = .next t) : t.len = s.len := by
  rw [State.len, State.len, (Proofs.stepKeepsProgramHeapAndHp s t hstep).1]

/-- STATE as R109 sets it: HALTED at the end of the program, RUNNING before it. -/
def State.StateByIp (s : State) : Prop :=
  s.stateField = if s.ip = s.len then RunState.halted.code else RunState.running.code

/-- The course of a jump-free program from `n` steps before its end, when it ends unfaulted: every
turn moves `ip` by 1, and the block is RUNNING until the end. -/
theorem runLoop_of_jumpFree {n : Nat} {s t : State} (hfree : JumpFree s.prog)
    (hstate : s.StateByIp) (hip : s.ip + n = s.len) (hloop : runLoop n s = .next t)
    (ht : t.stateField ≠ RunState.faulted.code) :
    t.stateField = RunState.halted.code ∧ t.ip = s.len ∧
    ∀ k, k < n → ∃ u, runLoop k s = .next u ∧ u.stateField = RunState.running.code ∧
      u.ip = s.ip + k := by
  induction n generalizing s with
  | zero =>
    cases hloop
    have hend : t.ip = t.len := by omega
    exact ⟨hstate.trans (if_pos hend), hend, fun k hk => absurd hk (Nat.not_lt_zero k)⟩
  | succ n ih =>
    have hrun : s.stateField = RunState.running.code := hstate.trans (if_neg (by omega))
    obtain ⟨s', hstep⟩ := exists_step_of_runLoop_succ hrun hloop
    have hnext : ∀ m, runLoop (m + 1) s = runLoop m s' := runLoop_succ hrun hstep
    rw [hnext] at hloop
    have hunfaulted : s'.stateField ≠ RunState.faulted.code := fun hfault => by
      have hnot : s'.stateField ≠ RunState.running.code := by rw [hfault]; decide
      rw [runLoop_of_not_running hnot] at hloop
      cases hloop
      exact ht hfault
    obtain ⟨-, -, -, -, hstate', -⟩ :=
      Proofs.unfaultedStepSetsStateByIp s s' hrun hstep hunfaulted
    have hip' : s'.ip = s.ip + 1 := step_ip_of_jumpFree hfree hrun hstep
    have hlen' : s'.len = s.len := step_len_eq hstep
    have hfree' : JumpFree s'.prog := (Proofs.stepKeepsProgramHeapAndHp s s' hstep).1 ▸ hfree
    obtain ⟨hhalted, hend, hturns⟩ := ih hfree' hstate' (by omega) hloop
    refine ⟨hhalted, by omega, fun k hk => ?_⟩
    cases k with
    | zero => exact ⟨s, rfl, hrun, by simp⟩
    | succ k =>
      obtain ⟨u, hloop', hrun', hipu⟩ := hturns k (by omega)
      exact ⟨u, (hnext k).trans hloop', hrun', by push_cast; omega⟩

theorem State.construct_stateByIp (words : List InstrWord) (memMax : Nat) :
    (State.construct words memMax).StateByIp := by
  simp [State.StateByIp, @eq_comm Int 0]

end Sys2Proof.Machine

namespace Sys2Proof.Proofs

open Sys2Proof.Machine

/-- Settles O46: the loop's gate is the step's, and the third part is an induction on the first
loop's steps. -/
theorem runStopsInTerminalStates : Obligations.RunStopsInTerminalStates :=
  ⟨fun n _ hnot => ⟨runLoop_of_not_running hnot n, State.runAnswer_of_not_running hnot⟩,
    fun n _ _ hrun hstep => ⟨runLoop_succ hrun hstep n, State.runAnswer_of_running hrun⟩,
    fun m n _ _ hloop => runLoop_add m n hloop⟩

/-- Settles O47: CONSTRUCT puts `ip` LEN steps before the end. -/
theorem jumpFreeProgramsRunExactlyLenSteps : Obligations.JumpFreeProgramsRunExactlyLenSteps := by
  intro words memMax t _ _ hfree hloop ht
  obtain ⟨hhalted, hend, hturns⟩ := runLoop_of_jumpFree (s := State.construct words memMax) hfree
    (State.construct_stateByIp words memMax) (by simp) hloop ht
  refine ⟨hhalted, by simpa using hend, fun k hk => ?_⟩
  obtain ⟨u, hloop', hrun, hip⟩ := hturns k hk
  exact ⟨u, hloop', hrun, by simpa using hip⟩

end Sys2Proof.Proofs
end

section
/-! Decimal arguments (30_encoding.md R78): the assembler reads the digits that the library writes;
and the statement about arguments in decimal. -/

namespace Sys2Proof.Machine

/-- A decimal digit has the value that the library's reader gives it. -/
theorem digitValue_of_isDigit {c : Char} (h : c.isDigit = true) :
    digitValue c = some (c.toNat - '0'.toNat) := by
  rw [Char.isDigit_iff_toNat] at h
  exact if_pos h

/-- On digits `readDigits` is the library's reader. -/
theorem readDigits_of_isDigit {cs : List Char} (h : ∀ c ∈ cs, c.isDigit = true) (acc : Nat) :
    readDigits acc cs = some (Nat.ofDigitChars 10 cs acc) := by
  induction cs generalizing acc with
  | nil => rfl
  | cons c cs ih =>
    obtain ⟨hc, hcs⟩ := List.forall_mem_cons.1 h
    rw [readDigits, digitValue_of_isDigit hc]
    exact ih hcs _

theorem isDigit_of_mem_decimal {n : Nat} {c : Char} (h : c ∈ Nat.toDigits 10 n) :
    c.isDigit = true :=
  Nat.isDigit_of_mem_toDigits (by decide) (le_refl 10) h

theorem readNat_decimal (n : Nat) : readNat (Nat.toDigits 10 n) = some n := by
  have hread : readDigits 0 (Nat.toDigits 10 n) = some n := by
    rw [readDigits_of_isDigit fun _ => isDigit_of_mem_decimal,
      Nat.ofDigitChars_toDigits (by decide) (le_refl 10)]
  cases hdigits : Nat.toDigits 10 n with
  | nil => exact absurd hdigits Nat.toDigits_ne_nil
  | cons c cs =>
    rw [hdigits] at hread
    exact hread

/-- Digits without a sign are read as they are, if their value is in range. -/
theorem readArg_decimal (n : Nat) :
    readArg (Nat.toDigits 10 n) = if argInRange n then some (n : Int) else none := by
  have hsign : ∀ ds, Nat.toDigits 10 n ≠ '-' :: ds := fun ds h => by
    have hdigit := isDigit_of_mem_decimal (n := n) (c := '-') (h ▸ List.mem_cons_self)
    exact absurd hdigit (by decide)
  have hread := readNat_decimal n
  generalize Nat.toDigits 10 n = cs at hsign hread
  unfold readArg
  split
  · exact absurd rfl (hsign _)
  · simp [hread]

/-- After `-` digits are read as the negative of their value. -/
theorem readArg_minus_decimal (n : Nat) :
    readArg ('-' :: Nat.toDigits 10 n) =
      if argInRange (-(n : Int)) then some (-(n : Int)) else none := by
  simp [readArg, readNat_decimal]

end Sys2Proof.Machine

namespace Sys2Proof.Proofs

open Sys2Proof.Machine

/-- Settles O49: the digits are read as `n`, and the range decides. -/
theorem decimalArgumentsReadBack : Obligations.DecimalArgumentsReadBack := by
  intro n
  rw [readArg_decimal, readArg_minus_decimal]
  refine ⟨fun hmax => ?_, fun hmax => ?_, fun hmin => ?_⟩
  · exact if_pos ((argInRange_iff _).2 ⟨by omega, hmax⟩)
  · exact if_neg (mt (argInRange_iff _).1 fun h => absurd h.2 (not_le.2 hmax))
  · exact if_pos ((argInRange_iff _).2 ⟨hmin, by omega⟩)

end Sys2Proof.Proofs
end
